-- ==== Sys2Proof/Word.lean ====
section
/-! DEFINITION. The words of the PSR-SSF block: command and response words, bytes and raw samples.

Every value of the block is an unsigned binary number, bit 0 the least significant (00_scope.md R12,
20_memory.md R51). Nothing is signed. -/

namespace Sys2Proof

/-- A 16-bit word: a command word, a response word, a running sum (R8: `CMD_BITS`, `RDATA_BITS`, `SUM_BITS`). -/
abbrev Word := BitVec 16

/-- One byte of the receive buffer (R8: `BYTE_BITS = 8`). -/
abbrev Byte := BitVec 8

/-- One raw sample. The operand field holds 12 bits (R75); a block built with `ADC_BITS < 12` admits only the
values below `2^ADC_BITS`, which `Instr.wf` checks and the invariant of Safety.lean states of the stored ones. -/
abbrev Sample := BitVec 12

/-- Where a ring-buffer cursor or length register is kept: as wide as the widest one of any legal block, `CW = 8` at
`RX_CAP = 256` (R11). A block's register is the `CW` low bits; Machine/Operands.lean reads and writes no others. -/
abbrev Counter := BitVec 8

end Sys2Proof
end

