-- ==== Sys2Proof/Config.lean ====
section
/-! DEFINITION. What an implementation of the block fixes (00_scope.md section 4), and the free values.

`Config` holds the parameters of R9. They never change while a block runs (R11, R18), and every definition that
depends on one takes it as an argument, so that a statement about the model covers every legal instance. -/

namespace Sys2Proof

/-- One of the two channels (R8: `NCH = 2`). A channel number is one bit: `ch0` is 0 and `ch1` is 1. -/
inductive Channel where
  | ch0
  | ch1
deriving DecidableEq, Repr

/-- The parameters of one block instance (R9). -/
structure Config where
  /-- `ADC_BITS`, the width of one raw sample: 1 to 12. -/
  adcBits : Nat
  /-- `RX_CAP` (also `C`), the number of slots of the receive buffer: 2 to 256. -/
  rxCap : Nat
  /-- `INIT_CHANNEL`, the channel selector after reset. -/
  initChannel : Channel
  /-- `CH_PIN[0]`, the physical analog input that `MUX_SEL = 0` selects, by a number of the integrator's. -/
  chPin0 : Nat
  /-- `CH_PIN[1]`, the physical analog input that `MUX_SEL = 1` selects. -/
  chPin1 : Nat
deriving DecidableEq, Repr

/-- The legal values of the parameters, R9's table: the two inputs of `CH_PIN` are any two distinct ones. -/
def Config.legal (c : Config) : Bool :=
  decide (1 ≤ c.adcBits ∧ c.adcBits ≤ 12 ∧ 2 ≤ c.rxCap ∧ c.rxCap ≤ 256 ∧ c.chPin0 ≠ c.chPin1)

/-- The values the spec takes for the parameters, R9's column "value this spec takes". `CH_PIN` is OPEN there: the
numbers 0 and 1 only keep the two inputs apart, and name no input of any converter (log entry 9). -/
def Config.standard : Config := { adcBits := 10, rxCap := 50, initChannel := .ch0, chPin0 := 0, chPin1 := 1 }

/-- FREE VALUE: what reading slot `i` of the receive buffer gives where no slot `i` exists. The spec gives
`any value` to such states, which no run reaches (93_implementation_defined.md section 2); log entry 5. -/
opaque Config.unbackedSlot : Nat → Byte

end Sys2Proof
end

