-- ==== Sys2Proof/Syntax.lean ====
section
/-! DEFINITION. The command set PSR-SSF-TL1: the seven command kinds (30_encoding.md R72) and the four ports. -/

namespace Sys2Proof

/-- The four ports, the sources of transactions (R70, 60_exceptions.md R186). -/
inductive Port where
  /-- The ADC converter's port. -/
  | adc
  /-- The USART receiver's port. -/
  | rx
  /-- The hardware timer's port. -/
  | tmr
  /-- The foreground program's port. -/
  | host
deriving DecidableEq, Repr

/-- One command with its operand, one constructor per row of spec/opcode_table.json (R72). -/
inductive Instr where
  /-- ADC_DONE: a conversion completed and gave this raw sample (R100). -/
  | adcDone (sample : Sample)
  /-- RX_BYTE: this byte was received (R150). -/
  | rxByte (byte : Byte)
  /-- TMR_OVF: the timer overflowed (R130). -/
  | tmrOvf
  /-- RD_SUM: read the published running sum of this channel (R111). -/
  | rdSum (ch : Channel)
  /-- RX_EMPTY: is the receive buffer empty (R157). -/
  | rxEmpty
  /-- RX_REMOVE: take the oldest received byte (R159). -/
  | rxRemove
  /-- CFG_WR: write the diagnostic enable (R137). -/
  | cfgWr (en : Bool)
deriving DecidableEq, Repr

end Sys2Proof
end

