-- ==== Sys2Proof/WellFormed.lean ====
section
/-! DEFINITION. The commands a block with given parameters admits. -/

namespace Sys2Proof

/-- The one check the types leave open: an ADC_DONE sample lies below `2^ADC_BITS` (30_encoding.md R75). Every other
operand takes every value of its field. -/
def Instr.wf (c : Config) : Instr → Bool
  | .adcDone x => decide (x.toNat < 2 ^ c.adcBits)
  | .rxByte _ => true
  | .tmrOvf => true
  | .rdSum _ => true
  | .rxEmpty => true
  | .rxRemove => true
  | .cfgWr _ => true

end Sys2Proof
end

