-- ==== Sys2Proof/Decode.lean ====
section
/-! DEFINITION. The decoder (30_encoding.md R79), total on every port and word and rejecting by name, and after it the
encoder (R90). -/

namespace Sys2Proof

/-- Why a transaction is illegal, the causes of 60_exceptions.md R182. The block reports all three alike. -/
inductive Illegal where
  /-- `OP` is one of the nine reserved values (R81). -/
  | reservedOp
  /-- A bit is set where the format requires zero, or a sample is `2^ADC_BITS` or more (R82). -/
  | reservedOperand
  /-- A legal word on a port that is not its kind's (R83). -/
  | wrongPort
deriving DecidableEq, Repr

/-- What the decoder answers: a command with its operand, or `ILLEGAL` with the cause. -/
inductive Decoded where
  | legal (i : Instr)
  | illegal (why : Illegal)
deriving DecidableEq, Repr

/-- The command of a decoder's answer, if it is one. -/
def Decoded.toOption : Decoded → Option Instr
  | .legal i => some i
  | .illegal _ => none

/-- `OP = cmd[15:12]` (R71). -/
def opField (w : Word) : BitVec 4 := w.extractLsb' 12 4

/-- `OPND = cmd[11:0]` (R71). -/
def opndField (w : Word) : BitVec 12 := w.extractLsb' 0 12

/-- The channel a one-bit operand selects (R76). -/
def channelOfBit (b : Bool) : Channel := if b then .ch1 else .ch0

/-- A channel's number as one bit (R76). -/
def bitOfChannel : Channel → Bool
  | .ch0 => false
  | .ch1 => true

/-- Format N: `OPND` must be zero (R73). -/
def formatN (i : Instr) (opnd : BitVec 12) : Decoded :=
  if opnd = 0#12 then .legal i else .illegal .reservedOperand

/-- Format B: `cmd[11:8]` must be zero, `BYTE = cmd[7:0]` (R74). -/
def formatB (i : Byte → Instr) (opnd : BitVec 12) : Decoded :=
  if opnd.extractLsb' 8 4 = 0#4 then .legal (i (opnd.extractLsb' 0 8)) else .illegal .reservedOperand

/-- Format S: `cmd[11:ADC_BITS]` must be zero, `SAMPLE = cmd[11:0]` (R75, R79). -/
def formatS (c : Config) (i : Sample → Instr) (opnd : BitVec 12) : Decoded :=
  if opnd >>> c.adcBits = 0#12 then .legal (i opnd) else .illegal .reservedOperand

/-- Formats C and E: `cmd[11:1]` must be zero, the operand is `cmd[0]` (R76, R77). -/
def formatBit (i : Bool → Instr) (opnd : BitVec 12) : Decoded :=
  if opnd.extractLsb' 1 11 = 0#11 then .legal (i (opnd.getLsbD 0)) else .illegal .reservedOperand

/-- The first part of R79: the kind and its operand, whatever the port. -/
def decodeWord (c : Config) (w : Word) : Decoded :=
  match opField w with
  | 0x1#4 => formatS c .adcDone (opndField w)
  | 0x2#4 => formatB .rxByte (opndField w)
  | 0x3#4 => formatN .tmrOvf (opndField w)
  | 0x8#4 => formatBit (fun b => .rdSum (channelOfBit b)) (opndField w)
  | 0x9#4 => formatN .rxEmpty (opndField w)
  | 0xA#4 => formatN .rxRemove (opndField w)
  | 0xB#4 => formatBit .cfgWr (opndField w)
  | _ => .illegal .reservedOp

/-- `PORT_OF(kind)`, the port column of R72. -/
def Instr.port : Instr → Port
  | .adcDone _ => .adc
  | .rxByte _ => .rx
  | .tmrOvf => .tmr
  | .rdSum _ => .host
  | .rxEmpty => .host
  | .rxRemove => .host
  | .cfgWr _ => .host

/-- The decoder of R79. -/
def decode (c : Config) (p : Port) (w : Word) : Decoded :=
  match decodeWord c w with
  | .legal i => if p = i.port then .legal i else .illegal .wrongPort
  | .illegal why => .illegal why

/-- The port of the kind an `OP` value spells (R72). A reserved `OP` spells none on any port (R81); for it the answer
is the port HOST, of no consequence since every port rejects it. -/
def portOfOp (op : BitVec 4) : Port :=
  match op with
  | 0x1#4 => .adc
  | 0x2#4 => .rx
  | 0x3#4 => .tmr
  | _ => .host

/-- What the decoder of the standard block (`ADC_BITS = 10`, as the opcode table has it) reads from a table row's
word, presented on the port of its kind. Every command word has 16 bits, so a number that needs more is no word (R70). -/
def decodeTableWord (nbits w : Nat) : Option Instr :=
  if w % 2 ^ nbits < 2 ^ 16 then
    let word : Word := BitVec.ofNat 16 (w % 2 ^ nbits)
    (decode Config.standard (portOfOp (opField word)) word).toOption
  else none

/-! ### The encoder -/

/-- `OP` of each kind (R72). -/
def opOf : Instr → BitVec 4
  | .adcDone _ => 0x1
  | .rxByte _ => 0x2
  | .tmrOvf => 0x3
  | .rdSum _ => 0x8
  | .rxEmpty => 0x9
  | .rxRemove => 0xA
  | .cfgWr _ => 0xB

/-- A one-bit operand in its field, `cmd[11:1]` zero (R76, R77). -/
def opndOfBit (b : Bool) : BitVec 12 := if b then 1 else 0

/-- `OPND` with the operand placed by its format (R73 to R77). -/
def opndOf : Instr → BitVec 12
  | .adcDone x => x
  | .rxByte b => b.setWidth 12
  | .tmrOvf => 0
  | .rdSum ch => opndOfBit (bitOfChannel ch)
  | .rxEmpty => 0
  | .rxRemove => 0
  | .cfgWr e => opndOfBit e

/-- The word of a command, `cmd = {OP, OPND}` (R90). -/
def encode (i : Instr) : Word := opOf i ++ opndOf i

end Sys2Proof
end

