-- ==== Sys2Proof/Machine/State.lean ====
section
/-! DEFINITION. The state of the machine: the block's own record (10_state.md R23), its parameters, and the interface
through which the four ports and the reset source act on it.

The block has no memory address space (R42), no general registers (R20), no program counter (R21) and no flags (R22). -/

namespace Sys2Proof.Machine

/-- The sliding window of one channel: R23's triple `WIN[ch]`, `WSUM[ch]`, `WCUR[ch]`. -/
structure Window where
  /-- `WIN[ch][0..7]`, the 8 most recent raw samples (R24). -/
  slots : Vector Sample 8
  /-- `WSUM[ch]`, the running sum (R25). -/
  sum : Word
  /-- `WCUR[ch]`, the slot the next sample overwrites, also the oldest sample's (R26). -/
  cursor : BitVec 3
deriving DecidableEq, Repr

/-- The receive ring buffer: R23's quintuple `RX_BUF`, `RX_RD`, `RX_WR`, `RX_LEN`, `RX_LAST`. The cursors and the
length are registers of `CW` bits, the low bits of their fields (R11, log entry 4). -/
structure Ring where
  /-- `RX_BUF[0..C-1]` (R30); it has `C` slots by the invariant of Safety.lean. -/
  buf : List Byte
  /-- `RX_RD`, the slot of the oldest unread byte. -/
  rd : Counter
  /-- `RX_WR`, the slot the next stored byte goes to. -/
  wr : Counter
  /-- `RX_LEN`, the number of unread bytes. -/
  len : Counter
  /-- `RX_LAST`, the byte the most recent non-empty RX_REMOVE returned (R31). -/
  last : Byte
deriving DecidableEq, Repr

/-- The complete state of one block instance, R23's record. -/
structure Block where
  /-- The sliding window of channel 0. -/
  win0 : Window
  /-- The sliding window of channel 1. -/
  win1 : Window
  /-- `SEL`, the channel selector (R27), driven on the output `MUX_SEL` (R33). -/
  sel : Channel
  /-- `PUB[0]`, the published sum of channel 0 (R28). -/
  pub0 : Word
  /-- `PUB[1]`, the published sum of channel 1 (R28). -/
  pub1 : Word
  /-- `DIAG_EN`, the diagnostic enable (R29). -/
  diagEn : Bool
  /-- `DIAG_OUT`, the diagnostic level (R29), driven on the output `DIAG` (R33). -/
  diagOut : Bool
  /-- The USART receive ring buffer. -/
  rx : Ring
deriving DecidableEq, Repr

/-- The response to one transaction, `(rdata, err)` (R70, R80), with the port it goes to. -/
structure Answer where
  port : Port
  rdata : Word
  err : Bool
deriving DecidableEq, Repr

/-- What happens next at a transaction boundary. The order among ports is free (60_exceptions.md R185) and reset
comes from outside (70_reset_and_hazards.md R210), so both are inputs (log entry 2). -/
inductive Turn where
  /-- The sequencer executes the transaction that port `p` presents. -/
  | serve (p : Port)
  /-- The reset input is asserted. -/
  | reset
deriving DecidableEq, Repr

/-- The machine: `cfg` and `block` are the block, the rest is its boundary. No meaning reads `answers`. -/
structure State where
  /-- The block's parameters (R9), written by nothing (R11, R18). -/
  cfg : Config
  /-- The block's architectural state (R23). -/
  block : Block
  /-- The transactions of port ADC, in the order it presents them: the head is the one presented, and each later one
  is presented after the response to the one before it (R185). -/
  adcIn : List Word
  /-- The same for port RX. -/
  rxIn : List Word
  /-- The same for port TMR. -/
  tmrIn : List Word
  /-- The same for port HOST. -/
  hostIn : List Word
  /-- What happens at the coming transaction boundaries, in order. -/
  turns : List Turn
  /-- The responses given so far, newest first (R229's observation). -/
  answers : List Answer
deriving DecidableEq, Repr

/-- The machine never faults: "The block raises no exception" (60_exceptions.md R181), "the block itself never stops,
halts or refuses to continue" (R229). So there is no fault reason, and nothing is left out by one (safe). -/
inductive Fault
deriving DecidableEq, Repr

/-- Why the model has no meaning for a command. -/
inductive Refusal where
  /-- Raised by an arm of `exec` for a command the model does not give a meaning yet; safe. No arm raises it now. -/
  | notModelled (mnemonic : String)
deriving DecidableEq, Repr

/-- A window after reset: slots, sum and cursor zero (R210). -/
def Window.reset : Window := { slots := Vector.replicate 8 0, sum := 0, cursor := 0 }

/-- The receive buffer after reset: every slot 0x00, cursors, length and `RX_LAST` zero (R210). -/
def Ring.reset (c : Config) : Ring :=
  { buf := List.replicate c.rxCap 0, rd := 0, wr := 0, len := 0, last := 0 }

/-- The block after reset (R210). -/
def Block.reset (c : Config) : Block :=
  { win0 := Window.reset, win1 := Window.reset, sel := c.initChannel, pub0 := 0, pub1 := 0,
    diagEn := false, diagOut := false, rx := Ring.reset c }

/-- A block with parameters `c` right after reset, no transaction presented and no response given yet. -/
def State.resetWith (c : Config) : State :=
  { cfg := c, block := Block.reset c, adcIn := [], rxIn := [], tmrIn := [], hostIn := [], turns := [], answers := [] }

/-- The machine right after reset, with the values the spec takes for the parameters (R9, log entry 1). -/
def State.reset : State := State.resetWith Config.standard

end Sys2Proof.Machine
end

