-- ==== Sys2Proof/Machine/Operands.lean ====
section
/-! DEFINITION. Operands and results: zero extension to 16 bits (30_encoding.md R78), and the arithmetic of the
cursors, the selector and the running sum. -/

namespace Sys2Proof

/-- `CW = ceil(log2(RX_CAP))`, the width in bits of the buffer's cursors and length counter (00_scope.md R11), for
every legal `RX_CAP`. -/
def Config.cursorBits (c : Config) : Nat := Nat.log2 (c.rxCap - 1) + 1

end Sys2Proof

namespace Sys2Proof.Machine

/-- `zext_16` of a byte (R51, R80). -/
def zextByte (b : Byte) : Word := b.setWidth 16

/-- `zext_16` of a truth value: 1 or 0 (R12). -/
def zextBool (b : Bool) : Word := if b then 1 else 0

/-- `SEL ^ 1` (40_sampler.md R101). -/
def flipChannel : Channel → Channel
  | .ch0 => .ch1
  | .ch1 => .ch0

/-- `(i + 1) & 7`, the advance of a window cursor (R8, R101). -/
def nextCursor (i : BitVec 3) : BitVec 3 := (i + 1) &&& 7

/-- What a cursor or length register holds: the `CW` low bits of its field (R11). -/
def counterValue (c : Config) (x : Counter) : Nat := x.toNat % 2 ^ c.cursorBits

/-- The register after a write of `n`: its `CW` low bits (R11). -/
def counterOf (c : Config) (n : Nat) : Counter := BitVec.ofNat 8 (n % 2 ^ c.cursorBits)

/-- The value of `RX_RD`. -/
def Ring.rdValue (c : Config) (r : Ring) : Nat := counterValue c r.rd

/-- The value of `RX_WR`. -/
def Ring.wrValue (c : Config) (r : Ring) : Nat := counterValue c r.wr

/-- The value of `RX_LEN`. -/
def Ring.lenValue (c : Config) (r : Ring) : Nat := counterValue c r.len

/-- `(i + 1) mod C`, the advance of a ring-buffer cursor (R151, R160). -/
def nextSlot (c : Config) (i : Nat) : Nat := (i + 1) % c.rxCap

/-- `(WSUM + 2^16 - old + s) mod 2^16`: subtract the evicted sample, add the new one (R101). -/
def slideSum (sum : Word) (old new : Sample) : Word :=
  BitVec.ofNat 16 ((sum.toNat + 2 ^ 16 - old.toNat + new.toNat) % 2 ^ 16)

end Sys2Proof.Machine
end

