-- ==== Sys2Proof/Machine/Flags.lean ====
section
/-! DEFINITION. The block stores no status flag (10_state.md R22). What stands in their place is computed where it is
used: the empty and full tests of the receive buffer, and the two level outputs. -/

namespace Sys2Proof.Machine

/-- `RX_LEN == 0` (R22, 42_rx_fifo.md R157). -/
def Ring.isEmpty (c : Config) (r : Ring) : Bool := r.lenValue c == 0

/-- `RX_LEN == C - 1`: full, one slot reserved (R151). -/
def Ring.isFull (c : Config) (r : Ring) : Bool := r.lenValue c == c.rxCap - 1

/-- The output `MUX_SEL`, a continuous copy of `SEL` (R33). -/
def Block.muxSel (b : Block) : Channel := b.sel

/-- The output `DIAG`, a continuous copy of `DIAG_OUT` (R33). -/
def Block.diag (b : Block) : Bool := b.diagOut

/-- `CH_PIN[ch]` (R9). -/
def chPin (c : Config) : Channel → Nat
  | .ch0 => c.chPin0
  | .ch1 => c.chPin1

/-- The physical analog input that `MUX_SEL` selects, by the parameter `CH_PIN` (R9, R33). -/
def State.analogInput (s : State) : Nat := chPin s.cfg s.block.muxSel

end Sys2Proof.Machine
end

