-- ==== Sys2Proof/Machine/Ops.lean ====
section
/-! DEFINITION. The named operations over the block's registers and arrays, the response, the rejection and the
boundary. The rejection is the counterpart of an exception: the block has none (60_exceptions.md R181, R188), and
there is nothing to return from (R190). -/

namespace Sys2Proof.Machine

/-! ### The sample windows and the published sums -/

/-- The window of channel `ch`. -/
def Block.window (b : Block) : Channel → Window
  | .ch0 => b.win0
  | .ch1 => b.win1

/-- Write the window of channel `ch`. -/
def Block.setWindow (b : Block) (ch : Channel) (w : Window) : Block :=
  match ch with
  | .ch0 => { b with win0 := w }
  | .ch1 => { b with win1 := w }

/-- `PUB[ch]`. -/
def Block.published (b : Block) : Channel → Word
  | .ch0 => b.pub0
  | .ch1 => b.pub1

/-- `PUB[ch] <- v`. -/
def Block.publish (b : Block) (ch : Channel) (v : Word) : Block :=
  match ch with
  | .ch0 => { b with pub0 := v }
  | .ch1 => { b with pub1 := v }

/-- `WinRead(ch, i)` (00_scope.md R14). -/
def Window.read (w : Window) (i : BitVec 3) : Sample := w.slots[i.toNat]'i.isLt

/-- The slots after `WinWrite(ch, i, x)` (R14). -/
def Window.write (w : Window) (i : BitVec 3) (x : Sample) : Vector Sample 8 := w.slots.set i.toNat x i.isLt

/-- The window's part of ADC_DONE: evict the oldest sample, insert the new one, advance the cursor (R101). -/
def Window.insert (w : Window) (x : Sample) : Window :=
  { slots := w.write w.cursor x
    sum := slideSum w.sum (w.read w.cursor) x
    cursor := nextCursor w.cursor }

/-! ### The receive buffer -/

/-- `BufRead(i)` (R14). Where the buffer has no slot `i`, which no run reaches, the value is free (log entry 5). -/
def Ring.read (r : Ring) (i : Nat) : Byte := (r.buf[i]?).getD (Config.unbackedSlot i)

/-- `Insert(byte)`: store at the write cursor unless full, in which case the byte is dropped (R151). -/
def Ring.insert (c : Config) (r : Ring) (b : Byte) : Ring :=
  if r.isFull c then r
  else
    { r with
      buf := r.buf.set (r.wrValue c) b
      wr := counterOf c (nextSlot c (r.wrValue c))
      len := counterOf c (r.lenValue c + 1) }

/-- The byte `Remove()` returns: the oldest unread one, or the stale one when empty (R160). -/
def Ring.front (c : Config) (r : Ring) : Byte := if r.isEmpty c then r.last else r.read (r.rdValue c)

/-- What `Remove()` leaves (R160). -/
def Ring.remove (c : Config) (r : Ring) : Ring :=
  if r.isEmpty c then r
  else
    { r with
      rd := counterOf c (nextSlot c (r.rdValue c))
      len := counterOf c (r.lenValue c - 1)
      last := r.read (r.rdValue c) }

/-! ### Responses -/

/-- End a transaction that writes the block: `respond(d, 0)` on port `p` (R14). -/
def State.complete (s : State) (p : Port) (b : Block) (d : Word) : State :=
  { s with block := b, answers := { port := p, rdata := d, err := false } :: s.answers }

/-- `reject()`: no state written, `respond(0x0000, 1)` (R14, R180). -/
def State.reject (s : State) (p : Port) : State :=
  { s with answers := { port := p, rdata := 0, err := true } :: s.answers }

/-! ### The boundary -/

/-- The transactions port `p` still has to present, the presented one first. -/
def State.queue (s : State) : Port → List Word
  | .adc => s.adcIn
  | .rx => s.rxIn
  | .tmr => s.tmrIn
  | .host => s.hostIn

/-- Replace the transactions port `p` has to present. -/
def State.setQueue (s : State) (p : Port) (q : List Word) : State :=
  match p with
  | .adc => { s with adcIn := q }
  | .rx => { s with rxIn := q }
  | .tmr => { s with tmrIn := q }
  | .host => { s with hostIn := q }

/-- Replace the coming turns. -/
def State.withTurns (s : State) (ts : List Turn) : State := { s with turns := ts }

/-- Reset: the block's whole record to its reset values, at once (70_reset_and_hazards.md R210). The ports wait with
what they present (R212). -/
def State.resetBlock (s : State) : State := { s with block := Block.reset s.cfg }

/-- What the coming transaction boundary brings. -/
inductive Fetched where
  /-- Nothing: no turn is taken, or the port served presents nothing. -/
  | idle
  /-- The reset input is asserted. -/
  | reset
  /-- The transaction `(p, w)` is executed. -/
  | transaction (p : Port) (w : Word)
deriving DecidableEq, Repr

/-- The coming boundary's event, read from the turns and the ports. -/
def State.fetched (s : State) : Fetched :=
  match s.turns with
  | [] => .idle
  | .reset :: _ => .reset
  | .serve p :: _ =>
    match s.queue p with
    | [] => .idle
    | w :: _ => .transaction p w

/-- The state once that event has been taken from the boundary: its turn is used up, and a transaction that was
presented no longer is. -/
def State.taken (s : State) : State :=
  match s.turns with
  | [] => s
  | .reset :: ts => s.withTurns ts
  | .serve p :: ts => (s.setQueue p (s.queue p).tail).withTurns ts

end Sys2Proof.Machine
end

