-- ==== Sys2Proof/Machine/RxFifo.lean ====
section
/-! DEFINITION. The receive buffer family (42_rx_fifo.md): RX_BYTE, RX_EMPTY and RX_REMOVE. -/

namespace Sys2Proof.Machine

/-- RX_BYTE (R151): store the byte, or drop it when full; the response is the same (R153). -/
def execRxByte (b : Byte) (s : State) : Host.Outcome State Fault Refusal :=
  .next (s.complete .rx { s.block with rx := s.block.rx.insert s.cfg b } 0)

/-- RX_EMPTY (R157): answer 1 when empty, 0 when not. -/
def execRxEmpty (s : State) : Host.Outcome State Fault Refusal :=
  .next (s.complete .host s.block (zextBool (s.block.rx.isEmpty s.cfg)))

/-- RX_REMOVE (R160): answer and consume the oldest byte; when empty, answer the stale byte and change nothing
(R162). -/
def execRxRemove (s : State) : Host.Outcome State Fault Refusal :=
  .next (s.complete .host { s.block with rx := s.block.rx.remove s.cfg } (zextByte (s.block.rx.front s.cfg)))

end Sys2Proof.Machine
end

