-- ==== Sys2Proof/Machine/Sampler.lean ====
section
/-! DEFINITION. The sampler family (40_sampler.md): ADC_DONE and RD_SUM. -/

namespace Sys2Proof.Machine

/-- ADC_DONE (R101): the window of channel `SEL` takes the sample, its new sum is published and answered, and the
selector flips. The sample is below `2^ADC_BITS` by decoding (R79). -/
def execAdcDone (x : Sample) (s : State) : Host.Outcome State Fault Refusal :=
  let ch := s.block.sel
  let w := (s.block.window ch).insert x
  let b := (s.block.setWindow ch w).publish ch w.sum
  .next (s.complete .adc { b with sel := flipChannel ch } w.sum)

/-- RD_SUM (R112): answer all 16 bits of `PUB[ch]`; no state is written (R113). -/
def execRdSum (ch : Channel) (s : State) : Host.Outcome State Fault Refusal :=
  .next (s.complete .host s.block (s.block.published ch))

end Sys2Proof.Machine
end

