-- ==== Sys2Proof/Machine/Tick.lean ====
section
/-! DEFINITION. The tick family (41_tick.md): TMR_OVF and CFG_WR. -/

namespace Sys2Proof.Machine

/-- TMR_OVF (R131): toggle `DIAG_OUT` when `DIAG_EN` is set. -/
def execTmrOvf (s : State) : Host.Outcome State Fault Refusal :=
  let out := if s.block.diagEn then !s.block.diagOut else s.block.diagOut
  .next (s.complete .tmr { s.block with diagOut := out } 0)

/-- CFG_WR (R138): write `DIAG_EN`; `DIAG_OUT` holds its level. -/
def execCfgWr (en : Bool) (s : State) : Host.Outcome State Fault Refusal :=
  .next (s.complete .host { s.block with diagEn := en } 0)

end Sys2Proof.Machine
end

