-- ==== Sys2Proof/Machine/Dispatch.lean ====
section
/-! DEFINITION. One arm per command kind. -/

namespace Sys2Proof.Machine

/-- The effect of a decoded command. -/
def exec (i : Instr) (s : State) : Host.Outcome State Fault Refusal :=
  match i with
  | .adcDone x => Sys2Proof.Machine.execAdcDone x s
  | .rxByte b => Sys2Proof.Machine.execRxByte b s
  | .tmrOvf => Sys2Proof.Machine.execTmrOvf s
  | .rdSum ch => Sys2Proof.Machine.execRdSum ch s
  | .rxEmpty => Sys2Proof.Machine.execRxEmpty s
  | .rxRemove => Sys2Proof.Machine.execRxRemove s
  | .cfgWr en => Sys2Proof.Machine.execCfgWr en s

end Sys2Proof.Machine
end

