-- ==== Sys2Proof/Machine/Step.lean ====
section
/-! DEFINITION. One step of the machine: what happens at one transaction boundary.

The block runs no program (00_scope.md R2): a "fetch" takes the transaction that the served port presents. -/

namespace Sys2Proof.Machine

/-- One step: nothing, a reset, or one whole transaction, atomically (20_memory.md R55). An illegal transaction is
rejected (60_exceptions.md R180). -/
def step (s : State) : Host.Outcome State Fault Refusal :=
  match s.fetched with
  | .idle => .next s.taken
  | .reset => .next s.taken.resetBlock
  | .transaction p w =>
    match decode s.cfg p w with
    | .legal i => exec i s.taken
    | .illegal _ => .next (s.taken.reject p)

/-- `s` with the 16-bit word `w` presented next on the port of its kind, and that port served next: the transaction
an agent places from outside (log entry 3). -/
def State.withFetchWord (s : State) (nbits w : Nat) : State :=
  let word : Word := BitVec.ofNat 16 (w % 2 ^ nbits)
  let p := portOfOp (opField word)
  (s.setQueue p (word :: s.queue p)).withTurns (.serve p :: s.turns)

end Sys2Proof.Machine
end

