-- ==== Sys2Proof/Machine/Assembler.lean ====
section
/-! DEFINITION. The transaction syntax of 30_encoding.md R90 and R91, as abstract syntax: what an assembler makes of a
line. It is notation for transactions and no part of the block. -/

namespace Sys2Proof.Machine

/-- What a line asks for, its numeric operand as written. -/
inductive AsmOp where
  | adcDone (n : Nat)
  | rxByte (n : Nat)
  | tmrOvf
  | rdSum (n : Nat)
  | rxEmpty
  | rxRemove
  | cfgWr (n : Nat)
  /-- `.word n`: a raw command word, legal or not. -/
  | word (n : Nat)
deriving DecidableEq, Repr

/-- The word of a line, or none: "An operand outside its range is an assembly error, not an encoding" (R91). -/
def assemble (c : Config) : AsmOp → Option Word
  | .adcDone n => if n < 2 ^ c.adcBits then some (encode (.adcDone (BitVec.ofNat 12 n))) else none
  | .rxByte n => if n < 2 ^ 8 then some (encode (.rxByte (BitVec.ofNat 8 n))) else none
  | .tmrOvf => some (encode .tmrOvf)
  | .rdSum n => if n < 2 then some (encode (.rdSum (channelOfBit (n == 1)))) else none
  | .rxEmpty => some (encode .rxEmpty)
  | .rxRemove => some (encode .rxRemove)
  | .cfgWr n => if n < 2 then some (encode (.cfgWr (n == 1))) else none
  | .word n => if n < 2 ^ 16 then some (BitVec.ofNat 16 n) else none

end Sys2Proof.Machine
end

