-- ==== Sys2Proof/Machine/Pseudo.lean ====
section
/-! DEFINITION. The pseudo-instructions of 30_encoding.md R92: sequences of transactions on the HOST port, between
which other ports' transactions may be executed. They are the host's, no part of the block. -/

namespace Sys2Proof.Machine

/-- The four pseudo-instructions. -/
inductive Pseudo where
  /-- A checked read: RX_EMPTY, then RX_REMOVE if the answer was 0. -/
  | rxGet
  /-- The average of a channel's window: RD_SUM, then the host shifts right by 3. -/
  | avg (ch : Channel)
  /-- CFG_WR 1. -/
  | diagOn
  /-- CFG_WR 0. -/
  | diagOff
deriving DecidableEq, Repr

/-- The first transaction of the sequence. -/
def Pseudo.first : Pseudo → Instr
  | .rxGet => .rxEmpty
  | .avg ch => .rdSum ch
  | .diagOn => .cfgWr true
  | .diagOff => .cfgWr false

/-- The second transaction, if the answer `rdata` to the first one calls for it. -/
def Pseudo.second (p : Pseudo) (rdata : Word) : Option Instr :=
  match p with
  | .rxGet => if rdata = 0 then some .rxRemove else none
  | .avg _ => none
  | .diagOn => none
  | .diagOff => none

/-- What the host computes from the answer to an AVG's RD_SUM (40_sampler.md R117). -/
def hostAverage (rdata : Word) : Word := rdata >>> 3

end Sys2Proof.Machine
end

