-- ==== Sys2Proof/Safety.lean ====
section
/-! DEFINITION. The terms that claims about the machine use: the invariants of 10_state.md section 4, the contents of
the two arrays in order of age, runs, and what is observed of them. No meaning uses anything of this file. -/

namespace Sys2Proof.Machine

/-! ### Invariants -/

/-- The arithmetic sum of the 8 slots, over the naturals (R34). -/
def Window.total (w : Window) : Nat :=
  w.slots[0].toNat + w.slots[1].toNat + w.slots[2].toNat + w.slots[3].toNat +
    w.slots[4].toNat + w.slots[5].toNat + w.slots[6].toNat + w.slots[7].toNat

/-- What holds of one channel: the running-sum invariant (R34), the publication invariant (R35), and the legal values
of the slots (R23). -/
abbrev Block.ChannelInv (c : Config) (b : Block) (ch : Channel) : Prop :=
  (b.window ch).sum.toNat = (b.window ch).total ∧
    b.published ch = (b.window ch).sum ∧
    ∀ i : Fin 8, ((b.window ch).slots[i]).toNat < 2 ^ c.adcBits

/-- The ring-buffer invariants (R36), with the number of slots (R30). -/
abbrev Ring.Inv (c : Config) (r : Ring) : Prop :=
  r.buf.length = c.rxCap ∧ r.lenValue c ≤ c.rxCap - 1 ∧ r.rdValue c < c.rxCap ∧ r.wrValue c < c.rxCap ∧
    r.wrValue c = (r.rdValue c + r.lenValue c) % c.rxCap

/-- What holds at every transaction boundary (R34 to R36) of a block with legal parameters (R9). -/
abbrev State.Inv (s : State) : Prop :=
  s.cfg.legal = true ∧ s.block.ChannelInv s.cfg .ch0 ∧ s.block.ChannelInv s.cfg .ch1 ∧ s.block.rx.Inv s.cfg

/-! ### The arrays in order of age -/

/-- The 8 samples of a window, oldest first: from the slot the cursor names (R26), round. -/
def Window.samples (w : Window) : List Sample :=
  (List.range 8).map fun k => w.read (w.cursor + BitVec.ofNat 3 k)

/-- The unread bytes, oldest first: `RX_BUF[(RX_RD + k) mod C]` for `k = 0 .. RX_LEN - 1` (R36). -/
def Ring.unread (c : Config) (r : Ring) : List Byte :=
  (List.range (r.lenValue c)).map fun k => r.read ((r.rdValue c + k) % c.rxCap)

/-- The two buffers agree in the slots, in `RX_LAST` and in what the three registers of `CW` bits hold (R11). -/
abbrev Ring.SameContents (c : Config) (a b : Ring) : Prop :=
  b.buf = a.buf ∧ b.last = a.last ∧ b.rdValue c = a.rdValue c ∧ b.wrValue c = a.wrValue c ∧ b.lenValue c = a.lenValue c

/-! ### What a transaction leaves alone -/

/-- The parameters and the boundary are the same in both states, responses apart. -/
abbrev State.SameBoundary (s t : State) : Prop :=
  t.cfg = s.cfg ∧ t.adcIn = s.adcIn ∧ t.rxIn = s.rxIn ∧ t.tmrIn = s.tmrIn ∧ t.hostIn = s.hostIn ∧ t.turns = s.turns

/-- The sampler's registers are the same in both blocks: windows, sums, cursors, selector, published sums. -/
abbrev Block.SameSampler (a b : Block) : Prop :=
  b.win0 = a.win0 ∧ b.win1 = a.win1 ∧ b.sel = a.sel ∧ b.pub0 = a.pub0 ∧ b.pub1 = a.pub1

/-- The tick source's registers are the same in both blocks. -/
abbrev Block.SameTick (a b : Block) : Prop :=
  b.diagEn = a.diagEn ∧ b.diagOut = a.diagOut

/-- From `s` to `t` exactly one response was given: `(d, err)` on port `p`. -/
abbrev State.Answers (s t : State) (p : Port) (d : Word) (err : Bool) : Prop :=
  t.answers = { port := p, rdata := d, err := err } :: s.answers

/-- In `s`, port `p` presents `w`, has `ws` to present after it, and is served next. -/
abbrev State.Offers (s : State) (p : Port) (w : Word) (ws : List Word) (ts : List Turn) : Prop :=
  s.turns = .serve p :: ts ∧ s.queue p = w :: ws

/-- `t` is `s` after the offered transaction of port `p` was rejected (R180): the block is the same, the only response
is `0x0000` with `err = 1`, and the transaction is no longer presented. -/
abbrev State.Rejected (s t : State) (p : Port) (ws : List Word) (ts : List Turn) : Prop :=
  t.block = s.block ∧ t.cfg = s.cfg ∧ s.Answers t p 0 true ∧ t.queue p = ws ∧
    (∀ q, q ≠ p → t.queue q = s.queue q) ∧ t.turns = ts

/-- The mask of ADC_DONE's words, R85: `0xF000 | (0x0FFF & ~(2^ADC_BITS - 1))`. -/
def adcDoneMask (c : Config) : Word := 0xF000 ||| (0x0FFF &&& ~~~(BitVec.ofNat 16 (2 ^ c.adcBits - 1)))

/-! ### Runs -/

/-- The commands of a list executed one after the other. -/
def execAll : List Instr → State → Host.Outcome State Fault Refusal
  | [], s => .next s
  | i :: is, s =>
    match exec i s with
    | .next t => execAll is t
    | .fault r => .fault r
    | .refused r => .refused r

/-- One executed command of a run, with the states around it. -/
structure Event where
  before : State
  instr : Instr
  after : State
deriving DecidableEq, Repr

/-- The events of `execAll`, in order. -/
def history : List Instr → State → List Event
  | [], _ => []
  | i :: is, s =>
    match exec i s with
    | .next t => { before := s, instr := i, after := t } :: history is t
    | .fault _ => []
    | .refused _ => []

/-- The byte an event stores: an RX_BYTE's that is not dropped (R166). -/
def Event.stored (e : Event) : Option Byte :=
  match e.instr with
  | .rxByte b => if e.before.block.rx.lenValue e.before.cfg = e.before.cfg.rxCap - 1 then none else some b
  | .adcDone _ => none
  | .tmrOvf => none
  | .rdSum _ => none
  | .rxEmpty => none
  | .rxRemove => none
  | .cfgWr _ => none

/-- The response data of an RX_REMOVE event. -/
def Event.returned (e : Event) : Option Word :=
  match e.instr with
  | .rxRemove => e.after.answers.head?.map (·.rdata)
  | .adcDone _ => none
  | .rxByte _ => none
  | .tmrOvf => none
  | .rdSum _ => none
  | .rxEmpty => none
  | .cfgWr _ => none

/-- The samples of a list of commands that are credited to channel `ch` when the selector starts at `sel`: every
ADC_DONE is credited to the selector, which then flips (40_sampler.md R107, R108). -/
def credited (ch : Channel) : Channel → List Instr → List Sample
  | _, [] => []
  | sel, .adcDone x :: is =>
    (if sel = ch then [x] else []) ++ credited ch (flipChannel sel) is
  | sel, .rxByte _ :: is => credited ch sel is
  | sel, .tmrOvf :: is => credited ch sel is
  | sel, .rdSum _ :: is => credited ch sel is
  | sel, .rxEmpty :: is => credited ch sel is
  | sel, .rxRemove :: is => credited ch sel is
  | sel, .cfgWr _ :: is => credited ch sel is

/-- The number of executed (not rejected) ADC_DONEs among some responses: port ADC presents no other kind (R186). -/
def conversions (as : List Answer) : Nat := as.countP fun a => a.port == .adc && !a.err

/-- The pairs of commands whose order matters, the list of 60_exceptions.md R187. -/
def orderMatters : Instr → Instr → Bool
  | .adcDone _, .rdSum _ => true
  | .rdSum _, .adcDone _ => true
  | .rxByte _, .rxRemove => true
  | .rxRemove, .rxByte _ => true
  | .rxByte _, .rxEmpty => true
  | .rxEmpty, .rxByte _ => true
  | .tmrOvf, .cfgWr _ => true
  | .cfgWr _, .tmrOvf => true
  | _, _ => false

/-- What is observed of a run (70_reset_and_hazards.md R229). -/
structure Observation where
  responses : List Answer
  final : Block
  muxSel : Channel
  diag : Bool
deriving DecidableEq, Repr

/-- The observation of a run that ends in `s`, its responses in the order they were given. -/
def State.observe (s : State) : Observation :=
  { responses := s.answers.reverse, final := s.block, muxSel := s.block.muxSel, diag := s.block.diag }

end Sys2Proof.Machine
end

