-- ==== Sys2Proof/Certificates/Slice0/Obligations.lean ====
section
/-! DEFINITION. What is claimed of the machine. Each docstring names the rule of spec/ its statement formalises; where
one rests on a convention of the model it names the log entry. -/

open Sys2Proof Sys2Proof.Machine

/-! ### Encoding -/

/-- The decoder gives back every command a block admits from the word that encodes it, on the port of its kind
(30_encoding.md R79, R90), for every value of the parameters. -/
def Obligations.DecodeOfEncodeIsTheInstruction : Prop :=
  ∀ (c : Config) (i : Instr), i.wf c = true → decode c i.port (encode i) = .legal i

/-- Whatever the decoder accepts is a command the block admits, on the port of its kind, and the word is that
command's own encoding: no other word spells it (R79). -/
def Obligations.DecodedWordIsTheInstructionsEncoding : Prop :=
  ∀ (c : Config) (p : Port) (w : Word) (i : Instr), decode c p w = .legal i →
    i.wf c = true ∧ i.port = p ∧ encode i = w

/-- The words of each kind are those its match and mask select; ADC_DONE's mask is R85's function of `ADC_BITS`, with
R85's three examples, and no other kind's depends on a parameter. -/
def Obligations.MatchAndMaskSelectEachKind : Prop :=
  (∀ (c : Config) (p : Port) (w : Word), c.legal = true →
    ((∃ x, decode c p w = .legal (.adcDone x)) ↔ p = .adc ∧ w &&& adcDoneMask c = 0x1000) ∧
    ((∃ b, decode c p w = .legal (.rxByte b)) ↔ p = .rx ∧ w &&& 0xFF00 = 0x2000) ∧
    (decode c p w = .legal .tmrOvf ↔ p = .tmr ∧ w &&& 0xFFFF = 0x3000) ∧
    ((∃ ch, decode c p w = .legal (.rdSum ch)) ↔ p = .host ∧ w &&& 0xFFFE = 0x8000) ∧
    (decode c p w = .legal .rxEmpty ↔ p = .host ∧ w &&& 0xFFFF = 0x9000) ∧
    (decode c p w = .legal .rxRemove ↔ p = .host ∧ w &&& 0xFFFF = 0xA000) ∧
    ((∃ e, decode c p w = .legal (.cfgWr e)) ↔ p = .host ∧ w &&& 0xFFFE = 0xB000)) ∧
  (∀ c : Config, (c.adcBits = 8 → adcDoneMask c = 0xFF00) ∧ (c.adcBits = 10 → adcDoneMask c = 0xFC00) ∧
    (c.adcBits = 12 → adcDoneMask c = 0xF000))

/-- The words the spec writes out, one for each kind and three illegal ones (95_test_vectors.md sections 2.1 to 2.8). -/
def Obligations.WrittenOutWordsDecode : Prop :=
  decode Config.standard .adc 0x1064 = .legal (.adcDone 100) ∧
  decode Config.standard .rx 0x2041 = .legal (.rxByte 0x41) ∧
  decode Config.standard .tmr 0x3000 = .legal .tmrOvf ∧
  decode Config.standard .host 0x8001 = .legal (.rdSum .ch1) ∧
  decode Config.standard .host 0x9000 = .legal .rxEmpty ∧
  decode Config.standard .host 0xA000 = .legal .rxRemove ∧
  decode Config.standard .host 0xB001 = .legal (.cfgWr true) ∧
  decode Config.standard .adc 0x1400 = .illegal .reservedOperand ∧
  decode Config.standard .host 0x1064 = .illegal .wrongPort ∧
  decode Config.standard .host 0x0000 = .illegal .reservedOp

/-- R81: a word with a reserved `OP`, the all-zero word among them, is illegal on every port and its transaction is
rejected. -/
def Obligations.ReservedOpcodesAreRejected : Prop :=
  (∀ (c : Config) (p : Port) (w : Word), w.toNat / 2 ^ 12 ∈ [0x0, 0x4, 0x5, 0x6, 0x7, 0xC, 0xD, 0xE, 0xF] →
    decode c p w = .illegal .reservedOp) ∧
  (∀ (s : State) (p : Port) (w : Word) (ws : List Word) (ts : List Turn), s.Offers p w ws ts →
    (w = 0x0000 ∨ w.toNat / 2 ^ 12 ∈ [0x0, 0x4, 0x5, 0x6, 0x7, 0xC, 0xD, 0xE, 0xF]) →
    ∃ t, step s = .next t ∧ s.Rejected t p ws ts)

/-- R82: a word of an assigned `OP` with a nonzero bit where its format requires zero, an ADC_DONE sample of
`2^ADC_BITS` or more among them, is illegal on every port and its transaction is rejected; no operand is truncated to
fit. -/
def Obligations.ReservedOperandBitsAreRejected : Prop :=
  ∀ (s : State) (p : Port) (w : Word) (ws : List Word) (ts : List Turn), s.Offers p w ws ts →
    (w.toNat / 2 ^ 12 = 0x1 ∧ w.toNat % 2 ^ 12 ≥ 2 ^ s.cfg.adcBits ∨
      w.toNat / 2 ^ 12 = 0x2 ∧ w.toNat % 2 ^ 12 ≥ 2 ^ 8 ∨
      w.toNat / 2 ^ 12 ∈ [0x3, 0x9, 0xA] ∧ w.toNat % 2 ^ 12 ≠ 0 ∨
      w.toNat / 2 ^ 12 ∈ [0x8, 0xB] ∧ w.toNat % 2 ^ 12 ≥ 2) →
    (∃ why, decode s.cfg p w = .illegal why) ∧ ∃ t, step s = .next t ∧ s.Rejected t p ws ts

/-- R83: a legal word presented on a port other than its kind's is illegal and rejected, with no state change. -/
def Obligations.WrongPortIsRejected : Prop :=
  ∀ (s : State) (p : Port) (i : Instr) (ws : List Word) (ts : List Turn), s.Offers p (encode i) ws ts →
    i.wf s.cfg = true → p ≠ i.port →
    decode s.cfg p (encode i) = .illegal .wrongPort ∧ ∃ t, step s = .next t ∧ s.Rejected t p ws ts

/-- R180: an illegal transaction writes no state, leaves the outputs, answers `0x0000` with `err = 1`, and leaves
nothing behind but that answer. -/
def Obligations.RejectionLeavesNoTrace : Prop :=
  ∀ (s : State) (p : Port) (w : Word) (ws : List Word) (ts : List Turn) (why : Illegal), s.Offers p w ws ts →
    decode s.cfg p w = .illegal why →
    ∃ t, step s = .next t ∧ s.Rejected t p ws ts ∧
      t.block.muxSel = s.block.muxSel ∧ t.block.diag = s.block.diag

/-! ### The step, the boundary and reset -/

/-- When the served port presents a word that decodes to `i`, the step is `exec i` in the state where that turn is used
up and that word no longer presented. -/
def Obligations.StepRunsTheDecodedTransaction : Prop :=
  ∀ (s : State) (p : Port) (w : Word) (ws : List Word) (ts : List Turn) (i : Instr), s.Offers p w ws ts →
    decode s.cfg p w = .legal i → step s = exec i ((s.setQueue p ws).withTurns ts)

/-- The model's convention (log entry 2): with no turn left the machine stays as it is, and a turn for a port that
presents nothing only passes. -/
def Obligations.NothingPresentedChangesNothing : Prop :=
  (∀ s : State, s.turns = [] → step s = .next s) ∧
  (∀ (s : State) (p : Port) (ts : List Turn), s.turns = .serve p :: ts → s.queue p = [] →
    step s = .next (s.withTurns ts))

/-- "the block itself never stops, halts or refuses to continue" (R229): every state has a next state, for every
number of steps. -/
def Obligations.TheBlockNeverStops : Prop :=
  ∀ (n : Nat) (s : State), ∃ t, Host.Core.run Sys2Proof.core n s = .next t

/-- Reset sets every item of state to its reset value at once, from any state, and the outputs follow
(70_reset_and_hazards.md section 1, R210). Three clauses are the model's choices: the turn is used up (log entry 2), the
responses given are not cleared (log entry 8), and the ports keep what they present over the one reset turn (log
entry 10, deduced from R212). -/
def Obligations.ResetSetsEveryItem : Prop :=
  ∀ (s : State) (ts : List Turn), s.turns = .reset :: ts → ∃ t, step s = .next t ∧
    (∀ ch, (∀ i : Fin 8, (t.block.window ch).slots[i] = 0) ∧ (t.block.window ch).sum = 0 ∧
      (t.block.window ch).cursor = 0 ∧ t.block.published ch = 0) ∧
    t.block.sel = s.cfg.initChannel ∧ t.block.diagEn = false ∧ t.block.diagOut = false ∧
    t.block.rx.buf.length = s.cfg.rxCap ∧ (∀ b ∈ t.block.rx.buf, b = 0) ∧
    t.block.rx.rd = 0 ∧ t.block.rx.wr = 0 ∧ t.block.rx.len = 0 ∧ t.block.rx.last = 0 ∧
    t.block.muxSel = s.cfg.initChannel ∧ t.block.diag = false ∧
    t.cfg = s.cfg ∧ (∀ p, t.queue p = s.queue p) ∧ t.answers = s.answers ∧ t.turns = ts

/-- The state the machine starts from: the parameters at the values the spec takes (R9), the items of R210, and nothing
presented or answered. That it has those parameters is the model's choice (log entry 1), and so is that no transaction
is presented yet (log entry 3). R9 leaves the two inputs of `CH_PIN` open (log entry 9): that they differ is all that is
said of them. -/
def Obligations.StartStateHoldsTheResetValues : Prop :=
  State.reset.cfg.adcBits = 10 ∧ State.reset.cfg.rxCap = 50 ∧ State.reset.cfg.initChannel = .ch0 ∧
  State.reset.cfg.chPin0 ≠ State.reset.cfg.chPin1 ∧ State.reset.cfg.legal = true ∧
  (∀ ch, (∀ i : Fin 8, (State.reset.block.window ch).slots[i] = 0) ∧ (State.reset.block.window ch).sum = 0 ∧
    (State.reset.block.window ch).cursor = 0 ∧ State.reset.block.published ch = 0) ∧
  State.reset.block.sel = .ch0 ∧ State.reset.block.diagEn = false ∧ State.reset.block.diagOut = false ∧
  State.reset.block.rx.buf.length = 50 ∧ (∀ b ∈ State.reset.block.rx.buf, b = 0) ∧
  State.reset.block.rx.rd = 0 ∧ State.reset.block.rx.wr = 0 ∧ State.reset.block.rx.len = 0 ∧
  State.reset.block.rx.last = 0 ∧ (∀ p, State.reset.queue p = []) ∧ State.reset.turns = [] ∧
  State.reset.answers = []

/-- The invariants of R34 to R36 hold after reset, for every legal parameter. -/
def Obligations.ResetMeetsTheInvariants : Prop :=
  State.reset.Inv ∧ ∀ c : Config, c.legal = true → (State.resetWith c).Inv

/-- The invariants of R34 to R36 and the legal slot values of R23 are kept by every step. -/
def Obligations.EveryStepKeepsTheInvariants : Prop :=
  ∀ s t : State, s.Inv → step s = .next t → t.Inv

/-- R34, R35, R36: from a reset block, whatever the ports present, in whatever order and with whatever resets, at every
transaction boundary each running sum is the sum of its 8 slots, is bounded so that ADC_DONE never wraps, and is what
is published; and the receive buffer's length and cursors are bounded and agree. -/
def Obligations.EveryRunFromResetKeepsSumsAndCursors : Prop :=
  ∀ (s t : State) (n : Nat), s.cfg.legal = true → s.block = Block.reset s.cfg →
    Host.Core.run Sys2Proof.core n s = .next t →
    (∀ ch, (t.block.window ch).sum.toNat = (t.block.window ch).total ∧
      (t.block.window ch).sum.toNat ≤ 8 * (2 ^ s.cfg.adcBits - 1) ∧ 8 * (2 ^ s.cfg.adcBits - 1) ≤ 32760 ∧
      (∀ (i : BitVec 3) (x : Sample), x.toNat < 2 ^ s.cfg.adcBits →
        ((t.block.window ch).read i).toNat ≤ (t.block.window ch).sum.toNat ∧
        (t.block.window ch).sum.toNat - ((t.block.window ch).read i).toNat + x.toNat < 2 ^ 16) ∧
      t.block.published ch = (t.block.window ch).sum) ∧
    t.block.rx.lenValue s.cfg ≤ s.cfg.rxCap - 1 ∧ t.block.rx.rdValue s.cfg < s.cfg.rxCap ∧
    t.block.rx.wrValue s.cfg < s.cfg.rxCap ∧
    t.block.rx.wrValue s.cfg = (t.block.rx.rdValue s.cfg + t.block.rx.lenValue s.cfg) % s.cfg.rxCap ∧
    (t.block.rx.unread s.cfg).length = t.block.rx.lenValue s.cfg ∧
    (∀ k, k < t.block.rx.lenValue s.cfg →
      (t.block.rx.unread s.cfg)[k]? = t.block.rx.buf[(t.block.rx.rdValue s.cfg + k) % s.cfg.rxCap]?)

/-- The parameters are fixed when the block is built (R11, R18): no step changes one. -/
def Obligations.NoStepChangesAParameter : Prop :=
  ∀ (n : Nat) (s t : State), Host.Core.run Sys2Proof.core n s = .next t → t.cfg = s.cfg

/-- R11: the buffer's cursors and its length counter are registers of `CW` bits, and `CW = ceil(log2(RX_CAP))` is the
least width for `RX_CAP` slots, 6 for 50. In every state they hold less than `2^CW`; a command leaves each as it was or
writes no bit above the `CW` low ones; and outside the invariants too a stored byte counts one more modulo `2^CW`, a
removed one one less. That each is kept in the low bits of a wider field is the model's choice, and what a command does
with a length beyond `RX_CAP - 1` is deduced (log entry 4). -/
def Obligations.RingCountersFitTheirRegisters : Prop :=
  (∀ c : Config, c.legal = true → c.rxCap ≤ 2 ^ c.cursorBits ∧ 2 ^ (c.cursorBits - 1) < c.rxCap ∧
    c.cursorBits ≤ 8 ∧ (c.rxCap = 50 → c.cursorBits = 6)) ∧
  (∀ s : State, s.block.rx.rdValue s.cfg < 2 ^ s.cfg.cursorBits ∧ s.block.rx.wrValue s.cfg < 2 ^ s.cfg.cursorBits ∧
    s.block.rx.lenValue s.cfg < 2 ^ s.cfg.cursorBits) ∧
  (∀ (i : Instr) (s t : State), exec i s = .next t →
    (t.block.rx.rd = s.block.rx.rd ∨ t.block.rx.rd.toNat < 2 ^ s.cfg.cursorBits) ∧
    (t.block.rx.wr = s.block.rx.wr ∨ t.block.rx.wr.toNat < 2 ^ s.cfg.cursorBits) ∧
    (t.block.rx.len = s.block.rx.len ∨ t.block.rx.len.toNat < 2 ^ s.cfg.cursorBits)) ∧
  (∀ s : State, s.cfg.legal = true →
    (∀ b, s.block.rx.lenValue s.cfg ≠ s.cfg.rxCap - 1 → ∃ t, exec (.rxByte b) s = .next t ∧
      t.block.rx.wrValue s.cfg = (s.block.rx.wrValue s.cfg + 1) % s.cfg.rxCap ∧
      t.block.rx.lenValue s.cfg = (s.block.rx.lenValue s.cfg + 1) % 2 ^ s.cfg.cursorBits) ∧
    (s.block.rx.lenValue s.cfg ≠ 0 → ∃ t, exec .rxRemove s = .next t ∧
      t.block.rx.rdValue s.cfg = (s.block.rx.rdValue s.cfg + 1) % s.cfg.rxCap ∧
      t.block.rx.lenValue s.cfg = s.block.rx.lenValue s.cfg - 1))

/-- R11, the other side: no bit above the `CW` low ones is part of a cursor or of the length counter. Two states whose
receive buffers agree in the slots, in `RX_LAST` and in what the three registers hold give the same answers, and agree
so again after any command. That there are such bits to tell apart is the model's choice (log entry 4). -/
def Obligations.NoBitAboveTheCounterWidthActs : Prop :=
  ∀ (i : Instr) (s : State) (r : Ring), s.block.rx.SameContents s.cfg r → ∃ t t',
    exec i s = .next t ∧ exec i { s with block := { s.block with rx := r } } = .next t' ∧
    t'.answers = t.answers ∧ t.block.rx.SameContents s.cfg t'.block.rx ∧
    { t'.block with rx := t.block.rx } = t.block

/-- R185: the transactions of one port execute in the order it presents them, and every order among the ports is
admitted: for any sequence of ports there are turns under which exactly those ports are answered in exactly that order,
each having its own transactions executed first to last. -/
def Obligations.EveryServiceOrderIsAdmitted : Prop :=
  ∀ (s : State) (order : List Port), (∀ p, order.count p ≤ (s.queue p).length) →
    ∃ t as, Host.Core.run Sys2Proof.core order.length (s.withTurns (order.map .serve)) = .next t ∧
      t.answers = as ++ s.answers ∧ as.reverse.map (·.port) = order ∧
      (∀ p, t.queue p = (s.queue p).drop (order.count p)) ∧ t.turns = []

/-! ### The sampler -/

/-- R101: ADC_DONE runs in every state on every admitted sample, with all its effects on the channel that `SEL`
names, and answers the new sum. -/
def Obligations.AdcDoneUpdatesTheSelectedWindow : Prop :=
  ∀ (s : State) (x : Sample), Instr.wf s.cfg (.adcDone x) = true → ∃ t, exec (.adcDone x) s = .next t ∧
    (t.block.window s.block.sel).read (s.block.window s.block.sel).cursor = x ∧
    (t.block.window s.block.sel).sum.toNat =
      ((s.block.window s.block.sel).sum.toNat + 2 ^ 16 -
        ((s.block.window s.block.sel).read (s.block.window s.block.sel).cursor).toNat + x.toNat) % 2 ^ 16 ∧
    (t.block.window s.block.sel).cursor.toNat = ((s.block.window s.block.sel).cursor.toNat + 1) % 8 ∧
    t.block.published s.block.sel = (t.block.window s.block.sel).sum ∧
    t.block.sel = flipChannel s.block.sel ∧ t.block.sel ≠ s.block.sel ∧
    s.Answers t .adc (t.block.window s.block.sel).sum false

/-- R102: what ADC_DONE leaves alone: every other slot of the window, the other channel's window and published sum, the
tick source, the receive buffer, the parameters and the boundary; and `MUX_SEL` changes with `SEL`. -/
def Obligations.AdcDoneFrame : Prop :=
  ∀ (s t : State) (x : Sample), exec (.adcDone x) s = .next t →
    (∀ i, i ≠ (s.block.window s.block.sel).cursor →
      (t.block.window s.block.sel).read i = (s.block.window s.block.sel).read i) ∧
    (∀ ch, ch ≠ s.block.sel → t.block.window ch = s.block.window ch ∧
      t.block.published ch = s.block.published ch) ∧
    s.block.SameTick t.block ∧ t.block.rx = s.block.rx ∧
    t.block.muxSel = t.block.sel ∧ t.block.muxSel ≠ s.block.muxSel ∧ s.SameBoundary t

/-- R104: where the running-sum invariant holds of the selected channel, the evicted sample is at most the sum, the new
sum is the old one less the evicted sample plus the new one as a natural number below `2^16` (the modulus changes
nothing), and the invariant holds after. -/
def Obligations.AdcDoneKeepsTheRunningSum : Prop :=
  ∀ (s : State) (x : Sample), s.Inv → Instr.wf s.cfg (.adcDone x) = true →
    ∃ t, exec (.adcDone x) s = .next t ∧
      ((s.block.window s.block.sel).read (s.block.window s.block.sel).cursor).toNat ≤
        (s.block.window s.block.sel).sum.toNat ∧
      (t.block.window s.block.sel).sum.toNat = (s.block.window s.block.sel).sum.toNat -
        ((s.block.window s.block.sel).read (s.block.window s.block.sel).cursor).toNat + x.toNat ∧
      (∀ ch, (t.block.window ch).sum.toNat = (t.block.window ch).total)

/-- R107: from a reset block, as long as no reset comes, after `k` executed ADC_DONEs (rejected ones do not count) the
selector is `INIT_CHANNEL ^ (k mod 2)`, and the next executed one, the `k + 1`-th, updates that channel and no other;
each executed ADC_DONE flips the selector and no other command writes it. -/
def Obligations.ExecutedConversionsAlternateChannels : Prop :=
  (∀ (s t : State) (n : Nat), s.block = Block.reset s.cfg → .reset ∉ s.turns.take n →
    Host.Core.run Sys2Proof.core n s = .next t →
    ∃ as, t.answers = as ++ s.answers ∧
      t.block.sel = (if conversions as % 2 = 0 then s.cfg.initChannel else flipChannel s.cfg.initChannel) ∧
      ∀ (x : Sample) (u : State), exec (.adcDone x) t = .next u →
        (u.block.window t.block.sel).cursor ≠ (t.block.window t.block.sel).cursor ∧
        u.block.window (flipChannel t.block.sel) = t.block.window (flipChannel t.block.sel)) ∧
  (∀ (i : Instr) (s t : State), exec i s = .next t →
    t.block.sel = (if (∃ x, i = .adcDone x) then flipChannel s.block.sel else s.block.sel))

/-- R109: once 8 or more ADC_DONEs on channel `ch` have executed, whatever else ran between them, its running sum and
its published sum are the sum of the last 8 samples credited to it. R109 says it of runs since reset; it is stated from
every state that meets the invariants. -/
def Obligations.WindowSumIsTheLastEightSamples : Prop :=
  ∀ (s t : State) (is : List Instr) (ch : Channel), s.Inv → (∀ i ∈ is, i.wf s.cfg = true) →
    execAll is s = .next t → 8 ≤ (credited ch s.block.sel is).length →
    (t.block.window ch).sum.toNat =
      (((credited ch s.block.sel is).drop ((credited ch s.block.sel is).length - 8)).map (·.toNat)).sum ∧
    t.block.published ch = (t.block.window ch).sum

/-- R106: from a reset block, after fewer than 8 ADC_DONEs on channel `ch` its running sum is the sum of the samples so
far, the empty slots counting as zero. -/
def Obligations.WarmUpSumIsTheSamplesSoFar : Prop :=
  ∀ (s t : State) (is : List Instr) (ch : Channel), s.cfg.legal = true → s.block = Block.reset s.cfg →
    (∀ i ∈ is, i.wf s.cfg = true) → execAll is s = .next t → (credited ch s.block.sel is).length < 8 →
    (t.block.window ch).sum.toNat = ((credited ch s.block.sel is).map (·.toNat)).sum ∧
    t.block.published ch = (t.block.window ch).sum

/-- R112: RD_SUM runs in every state, answers all 16 bits of the published sum, which is the running sum where the
invariants hold, and changes nothing else. -/
def Obligations.RdSumAnswersThePublishedSum : Prop :=
  ∀ (s : State) (ch : Channel), ∃ t, exec (.rdSum ch) s = .next t ∧
    s.Answers t .host (s.block.published ch) false ∧
    (s.Inv → s.Answers t .host (s.block.window ch).sum false) ∧ t.block = s.block ∧ s.SameBoundary t

/-- R113: RD_SUM writes no state, and two RD_SUMs of one channel with anything but an ADC_DONE between them answer the
same. -/
def Obligations.SumReadsRepeatUntilAConversion : Prop :=
  ∀ (s a b c : State) (is : List Instr) (ch : Channel), (∀ i ∈ is, ∀ x, i ≠ .adcDone x) →
    exec (.rdSum ch) s = .next a → execAll is a = .next b → exec (.rdSum ch) b = .next c →
    a.block = s.block ∧ c.block = b.block ∧
    ∃ d, s.Answers a .host d false ∧ b.Answers c .host d false

/-- R117: the average a consumer computes from an RD_SUM is the running sum divided by 8, rounded down. -/
def Obligations.AverageIsTheSumOverEight : Prop :=
  ∀ (s : State) (ch : Channel), s.Inv → ∃ t d, exec (Pseudo.avg ch).first s = .next t ∧
    s.Answers t .host d false ∧ (hostAverage d).toNat = (s.block.window ch).sum.toNat / 8

/-! ### The tick source -/

/-- R131, R132: TMR_OVF runs in every state, toggles `DIAG_OUT` when `DIAG_EN` is set, answers 0, and changes nothing
else. -/
def Obligations.TmrOvfTogglesWhenEnabled : Prop :=
  ∀ s : State, ∃ t, exec .tmrOvf s = .next t ∧
    t.block.diagOut = (s.block.diagOut ^^ s.block.diagEn) ∧ t.block.diag = t.block.diagOut ∧
    t.block.diagEn = s.block.diagEn ∧ s.block.SameSampler t.block ∧ t.block.rx = s.block.rx ∧
    s.Answers t .tmr 0 false ∧ s.SameBoundary t

/-- R135 (a) and (b): `n` TMR_OVFs in a row flip `DIAG_OUT` `n mod 2` times when enabled and hold it when not. -/
def Obligations.OverflowsMakeASquareWave : Prop :=
  ∀ (n : Nat) (s : State), ∃ t, execAll (List.replicate n .tmrOvf) s = .next t ∧
    t.block = { s.block with diagOut := s.block.diagOut ^^ (s.block.diagEn && n % 2 == 1) }

/-- R138, R139: CFG_WR runs in every state, writes `DIAG_EN`, holds `DIAG_OUT`, answers 0, and changes nothing else. -/
def Obligations.CfgWrWritesTheEnable : Prop :=
  ∀ (s : State) (e : Bool), ∃ t, exec (.cfgWr e) s = .next t ∧
    t.block.diagEn = e ∧ t.block.diagOut = s.block.diagOut ∧ t.block.diag = s.block.diag ∧
    s.block.SameSampler t.block ∧ t.block.rx = s.block.rx ∧
    s.Answers t .host 0 false ∧ s.SameBoundary t

/-! ### The receive buffer -/

/-- R151, R152, R153: RX_BYTE runs wherever the invariants hold. Not full, it stores the byte in the write cursor's
slot and no other, advances that cursor modulo the capacity and the length by one; full, it changes nothing. The
answer is 0 either way, and it writes nothing else. -/
def Obligations.RxByteStoresOrDropsTheNewest : Prop :=
  ∀ (s : State) (b : Byte), s.Inv → ∃ t, exec (.rxByte b) s = .next t ∧
    (s.block.rx.lenValue s.cfg = s.cfg.rxCap - 1 → t.block.rx = s.block.rx) ∧
    (s.block.rx.lenValue s.cfg ≠ s.cfg.rxCap - 1 →
      t.block.rx.buf[s.block.rx.wrValue s.cfg]? = some b ∧
      (∀ i, i ≠ s.block.rx.wrValue s.cfg → t.block.rx.buf[i]? = s.block.rx.buf[i]?) ∧
      t.block.rx.wrValue s.cfg = (s.block.rx.wrValue s.cfg + 1) % s.cfg.rxCap ∧
      t.block.rx.lenValue s.cfg = s.block.rx.lenValue s.cfg + 1) ∧
    t.block.rx.rd = s.block.rx.rd ∧ t.block.rx.last = s.block.rx.last ∧
    s.block.SameSampler t.block ∧ s.block.SameTick t.block ∧
    s.Answers t .rx 0 false ∧ s.SameBoundary t

/-- R157: RX_EMPTY is the word `0x9000` on port HOST and no other; it runs in every state, answers 1 when the length is
0 and 0 when not, and changes nothing. -/
def Obligations.RxEmptyAnswersTheEmptyTest : Prop :=
  (∀ (c : Config) (p : Port) (w : Word), decode c p w = .legal .rxEmpty ↔ p = .host ∧ w = 0x9000) ∧
  ∀ s : State, ∃ t, exec .rxEmpty s = .next t ∧
    s.Answers t .host (if s.block.rx.lenValue s.cfg = 0 then 0x0001 else 0x0000) false ∧
    t.block = s.block ∧ s.SameBoundary t

/-- R160, and the writes of R161: RX_REMOVE runs wherever the invariants hold. Not empty, it answers the byte in the read cursor's slot,
advances that cursor modulo the capacity, takes one from the length and remembers the byte; empty, it answers the byte
remembered and changes nothing. It never writes a slot, the write cursor or anything else. -/
def Obligations.RxRemoveTakesTheOldest : Prop :=
  ∀ s : State, s.Inv → ∃ t b, exec .rxRemove s = .next t ∧
    s.Answers t .host (b.setWidth 16) false ∧
    (s.block.rx.lenValue s.cfg = 0 → b = s.block.rx.last ∧ t.block.rx = s.block.rx) ∧
    (s.block.rx.lenValue s.cfg ≠ 0 → s.block.rx.buf[s.block.rx.rdValue s.cfg]? = some b ∧
      t.block.rx.rdValue s.cfg = (s.block.rx.rdValue s.cfg + 1) % s.cfg.rxCap ∧
      t.block.rx.lenValue s.cfg = s.block.rx.lenValue s.cfg - 1 ∧ t.block.rx.last = b) ∧
    t.block.rx.wr = s.block.rx.wr ∧ t.block.rx.buf = s.block.rx.buf ∧
    s.block.SameSampler t.block ∧ s.block.SameTick t.block ∧ s.SameBoundary t

/-- The receive buffer is a queue of at most `C - 1` bytes that drops the newest when full and repeats the last byte
taken when empty: the three commands act on the unread bytes, oldest first, as on that queue (42_rx_fifo.md sections 1
to 3). -/
def Obligations.RingRefinesABoundedQueue : Prop :=
  ∀ s t : State, s.Inv →
    (∀ b, exec (.rxByte b) s = .next t →
      t.block.rx.unread t.cfg = (if (s.block.rx.unread s.cfg).length < s.cfg.rxCap - 1 then
        s.block.rx.unread s.cfg ++ [b] else s.block.rx.unread s.cfg) ∧ t.block.rx.last = s.block.rx.last) ∧
    (exec .rxEmpty s = .next t → t.block.rx.unread t.cfg = s.block.rx.unread s.cfg ∧
      s.Answers t .host (if s.block.rx.unread s.cfg = [] then 1 else 0) false) ∧
    (exec .rxRemove s = .next t → t.block.rx.unread t.cfg = (s.block.rx.unread s.cfg).tail ∧
      t.block.rx.last = (s.block.rx.unread s.cfg).headD s.block.rx.last ∧
      s.Answers t .host (((s.block.rx.unread s.cfg).headD s.block.rx.last).setWidth 16) false)

/-- R166 (a): from an empty buffer, after the bytes `bs` and no RX_REMOVE the length is `min(m, C - 1)`, and the bytes
kept are the first `C - 1` of them. -/
def Obligations.FirstBytesAreKept : Prop :=
  ∀ (s : State) (bs : List Byte), s.Inv → s.block.rx.lenValue s.cfg = 0 →
    ∃ t, execAll (bs.map .rxByte) s = .next t ∧ t.block.rx.lenValue s.cfg = min bs.length (s.cfg.rxCap - 1) ∧
      t.block.rx.unread s.cfg = bs.take (s.cfg.rxCap - 1)

/-- R166 (b): over any run of commands in which no RX_REMOVE finds the buffer empty, the bytes returned are the unread
bytes at the start and then the bytes stored, in that order, as far as they have been removed; what remains is unread.
From an empty buffer that is the sequence stored. -/
def Obligations.BytesLeaveInTheOrderStored : Prop :=
  ∀ (s t : State) (is : List Instr), s.Inv → execAll is s = .next t →
    (∀ e ∈ history is s, e.instr = .rxRemove → e.before.block.rx.lenValue e.before.cfg ≠ 0) →
    (s.block.rx.unread s.cfg ++ (history is s).filterMap Event.stored).map (·.setWidth 16) =
      (history is s).filterMap Event.returned ++ (t.block.rx.unread s.cfg).map (·.setWidth 16)

/-- R166 (c): any number of RX_REMOVEs on an empty buffer answer the same byte, the last one removed, and change no
state. -/
def Obligations.EmptyReadsAreIdempotent : Prop :=
  ∀ (n : Nat) (s : State), s.block.rx.lenValue s.cfg = 0 → ∃ t, execAll (List.replicate n .rxRemove) s = .next t ∧
    t.block = s.block ∧ s.SameBoundary t ∧
    t.answers = List.replicate n { port := .host, rdata := s.block.rx.last.setWidth 16, err := false } ++ s.answers

/-- A checked read never returns a stale byte (R92's RX_GET, the caller contract of R167): if RX_EMPTY answered 0, then
after any steps that serve other ports only, RX_REMOVE returns the byte that was then the oldest unread one. -/
def Obligations.CheckedReadIsNeverStale : Prop :=
  ∀ (s a b t : State) (n : Nat), s.Inv → exec Pseudo.rxGet.first s = .next a →
    s.Answers a .host 0x0000 false → (∀ u ∈ a.turns.take n, u ≠ .reset ∧ u ≠ .serve .host) →
    Host.Core.run Sys2Proof.core n a = .next b → exec .rxRemove b = .next t →
    Pseudo.rxGet.second 0x0000 = some .rxRemove ∧
    ∃ x, (s.block.rx.unread s.cfg).head? = some x ∧ b.Answers t .host (x.setWidth 16) false

/-! ### Rules about the whole block -/

/-- The ownership of R45, by port (R186): a transaction of a port, executed or rejected, changes only what that port
owns: only ADC the sampler, only RX and HOST the receive buffer, only TMR the diagnostic level, only HOST the enable.
Only HOST lowers the buffer's length and only RX raises it; that RX does not lower it is said where the invariants hold,
outside which the length can pass `2^CW` (log entry 4). -/
def Obligations.PortsWriteOnlyWhatTheyOwn : Prop :=
  ∀ (s t : State) (p : Port) (ts : List Turn), s.turns = .serve p :: ts → step s = .next t →
    (p ≠ .adc → s.block.SameSampler t.block) ∧
    (p ≠ .rx → p ≠ .host → t.block.rx = s.block.rx) ∧
    (p ≠ .rx → t.block.rx.buf = s.block.rx.buf ∧ t.block.rx.wr = s.block.rx.wr ∧
      t.block.rx.lenValue s.cfg ≤ s.block.rx.lenValue s.cfg) ∧
    (p ≠ .host → t.block.rx.rd = s.block.rx.rd ∧ t.block.rx.last = s.block.rx.last ∧
      t.block.diagEn = s.block.diagEn ∧ (s.Inv → s.block.rx.lenValue s.cfg ≤ t.block.rx.lenValue s.cfg)) ∧
    (p ≠ .tmr → t.block.diagOut = s.block.diagOut)

/-- The published sums are read by RD_SUM alone (R23, R45): for any other command, two states that differ only in them
give the same answer and next blocks that differ at most in them. -/
def Obligations.OnlySumReadsSeeThePublishedSums : Prop :=
  ∀ (i : Instr) (s : State) (v0 v1 : Word), (∀ ch, i ≠ .rdSum ch) → ∃ t t',
    exec i s = .next t ∧ exec i { s with block := { s.block with pub0 := v0, pub1 := v1 } } = .next t' ∧
    t'.answers = t.answers ∧
    { t'.block with pub0 := t.block.pub0, pub1 := t.block.pub1 } = t.block

/-- R187: two commands of different ports, outside the three pairs R187 lists, give the same block and the same answers
in either order; each listed pair can disagree; and a transaction that is illegal for several causes at once gets the
one rejection all the same. -/
def Obligations.UnlistedPairsCommute : Prop :=
  (∀ (i j : Instr) (s : State), i.port ≠ j.port → orderMatters i j = false →
    ∃ a b c d ri rj, exec i s = .next a ∧ exec j a = .next b ∧ exec j s = .next c ∧ exec i c = .next d ∧
      b.block = d.block ∧ b.answers = rj :: ri :: s.answers ∧ d.answers = ri :: rj :: s.answers) ∧
  (∀ k ∈ [(Instr.adcDone 1, Instr.rdSum .ch0), (.rxByte 1, .rxRemove), (.rxByte 1, .rxEmpty), (.tmrOvf, .cfgWr true)],
    orderMatters k.1 k.2 = true ∧ ∃ s a b c d, exec k.1 s = .next a ∧ exec k.2 a = .next b ∧
      exec k.2 s = .next c ∧ exec k.1 c = .next d ∧
      (b.block ≠ d.block ∨ b.answers.take 2 ≠ (d.answers.take 2).reverse)) ∧
  (∀ (s : State) (p : Port) (w : Word) (ws : List Word) (ts : List Turn), s.Offers p w ws ts →
    decodeWord s.cfg w = .illegal .reservedOperand → p ≠ portOfOp (opField w) →
    ∃ t, step s = .next t ∧ s.Rejected t p ws ts)

/-- The outputs change with their owners only (R33, R226, 41_tick.md section 1): without a reset, `MUX_SEL` changes in a
step exactly when an ADC_DONE is executed, and `DIAG` exactly when a TMR_OVF is executed while enabled. With legal
parameters the analog input selected, `CH_PIN` of `MUX_SEL` (R9), changes exactly when `MUX_SEL` does, whichever two
distinct inputs they are. -/
def Obligations.OutputsFollowTheirCommands : Prop :=
  ∀ (s t : State) (p : Port) (w : Word) (ws : List Word) (ts : List Turn), s.Offers p w ws ts → step s = .next t →
    (t.block.muxSel ≠ s.block.muxSel ↔ ∃ x, decode s.cfg p w = .legal (.adcDone x)) ∧
    (t.block.diag ≠ s.block.diag ↔ decode s.cfg p w = .legal .tmrOvf ∧ s.block.diagEn = true) ∧
    t.analogInput = (match t.block.muxSel with | .ch0 => s.cfg.chPin0 | .ch1 => s.cfg.chPin1) ∧
    (s.cfg.legal = true → (t.analogInput ≠ s.analogInput ↔ ∃ x, decode s.cfg p w = .legal (.adcDone x)))

/-- R90, R91: a line assembles exactly when its operand is in range, and the word of a mnemonic line, presented on its
kind's port, decodes to that command with that operand; a raw word is taken as it is. -/
def Obligations.AssembledLinesDecode : Prop :=
  ∀ c : Config, c.legal = true →
    (∀ n w, assemble c (.adcDone n) = some w ↔ n < 2 ^ c.adcBits ∧ decode c .adc w = .legal (.adcDone (BitVec.ofNat 12 n))) ∧
    (∀ n w, assemble c (.rxByte n) = some w ↔ n < 256 ∧ decode c .rx w = .legal (.rxByte (BitVec.ofNat 8 n))) ∧
    (∀ w, assemble c .tmrOvf = some w ↔ decode c .tmr w = .legal .tmrOvf) ∧
    (∀ n w, assemble c (.rdSum n) = some w ↔
      n = 0 ∧ decode c .host w = .legal (.rdSum .ch0) ∨ n = 1 ∧ decode c .host w = .legal (.rdSum .ch1)) ∧
    (∀ w, assemble c .rxEmpty = some w ↔ decode c .host w = .legal .rxEmpty) ∧
    (∀ w, assemble c .rxRemove = some w ↔ decode c .host w = .legal .rxRemove) ∧
    (∀ n w, assemble c (.cfgWr n) = some w ↔
      n = 0 ∧ decode c .host w = .legal (.cfgWr false) ∨ n = 1 ∧ decode c .host w = .legal (.cfgWr true)) ∧
    (∀ n w, assemble c (.word n) = some w ↔ w.toNat = n)
end

