-- ==== Sys2Proof/Laws/Decode.lean ====
section
/-! SUPPORT. Small lemmas about the decoder and the encoder. -/

namespace Sys2Proof

@[simp] theorem opField_encode (i : Instr) : opField (encode i) = opOf i := by
  simp only [opField, encode]; exact BitVec.extractLsb'_append_eq_left

@[simp] theorem opndField_encode (i : Instr) : opndField (encode i) = opndOf i := by
  simp only [opndField, encode]; exact BitVec.extractLsb'_append_eq_right

/-- A word is its two fields. -/
theorem opField_append_opndField (w : Word) : opField w ++ opndField w = w := by
  apply BitVec.eq_of_getLsbD_eq
  intro i hi
  simp only [opField, opndField, BitVec.getLsbD_append, BitVec.getLsbD_extractLsb']
  by_cases h : i < 12
  · simp [h]
  · simp [h, show i - 12 < 4 by omega, show 12 + (i - 12) = i by omega]

theorem opField_toNat (w : Word) : (opField w).toNat = w.toNat / 2 ^ 12 := by
  have := w.isLt
  simp [opField, BitVec.extractLsb'_toNat, Nat.shiftRight_eq_div_pow]; omega

theorem opndField_toNat (w : Word) : (opndField w).toNat = w.toNat % 2 ^ 12 := by
  simp [opndField, BitVec.extractLsb'_toNat]

@[simp] theorem channelOfBit_bitOfChannel (ch : Channel) : channelOfBit (bitOfChannel ch) = ch := by cases ch <;> rfl
@[simp] theorem bitOfChannel_channelOfBit (b : Bool) : bitOfChannel (channelOfBit b) = b := by cases b <;> rfl

/-- The checks of R75 and R79 on a sample agree. -/
theorem shiftRight_eq_zero_iff (x : BitVec 12) (n : Nat) : x >>> n = 0#12 ↔ x.toNat < 2 ^ n := by
  rw [← BitVec.toNat_inj]
  simp [Nat.shiftRight_eq_div_pow, Nat.div_eq_zero_iff]

/-- The decoder accepts a word of the kind on the kind's port and nowhere else. -/
theorem decode_legal_iff (c : Config) (p : Port) (w : Word) (i : Instr) :
    decode c p w = .legal i ↔ decodeWord c w = .legal i ∧ p = i.port := by
  cases hj : decodeWord c w with
  | illegal why => simp [decode, hj]
  | legal j =>
    by_cases h : p = j.port
    · simp only [decode, hj, h, if_true, Decoded.legal.injEq]
      exact ⟨fun e => ⟨e, e ▸ rfl⟩, fun e => e.1⟩
    · simp only [decode, hj, h, if_false, reduceCtorEq, false_iff, Decoded.legal.injEq]
      rintro ⟨rfl, e⟩
      exact h e

end Sys2Proof
end

