-- ==== Sys2Proof/Laws/State.lean ====
section
/-! SUPPORT. One lemma per field per update of the state: what each named operation writes and what it leaves. -/

namespace Sys2Proof.Machine

section complete
variable (s : State) (p : Port) (b : Block) (d : Word)
@[simp] theorem complete_cfg : (s.complete p b d).cfg = s.cfg := rfl
@[simp] theorem complete_block : (s.complete p b d).block = b := rfl
@[simp] theorem complete_adcIn : (s.complete p b d).adcIn = s.adcIn := rfl
@[simp] theorem complete_rxIn : (s.complete p b d).rxIn = s.rxIn := rfl
@[simp] theorem complete_tmrIn : (s.complete p b d).tmrIn = s.tmrIn := rfl
@[simp] theorem complete_hostIn : (s.complete p b d).hostIn = s.hostIn := rfl
@[simp] theorem complete_turns : (s.complete p b d).turns = s.turns := rfl
@[simp] theorem complete_answers : (s.complete p b d).answers = ⟨p, d, false⟩ :: s.answers := rfl
@[simp] theorem complete_queue (q : Port) : (s.complete p b d).queue q = s.queue q := by cases q <;> rfl
end complete

section reject
variable (s : State) (p : Port)
@[simp] theorem reject_cfg : (s.reject p).cfg = s.cfg := rfl
@[simp] theorem reject_block : (s.reject p).block = s.block := rfl
@[simp] theorem reject_turns : (s.reject p).turns = s.turns := rfl
@[simp] theorem reject_answers : (s.reject p).answers = ⟨p, 0, true⟩ :: s.answers := rfl
@[simp] theorem reject_queue (q : Port) : (s.reject p).queue q = s.queue q := by cases q <;> rfl
end reject

section resetBlock
variable (s : State)
@[simp] theorem resetBlock_cfg : s.resetBlock.cfg = s.cfg := rfl
@[simp] theorem resetBlock_block : s.resetBlock.block = Block.reset s.cfg := rfl
@[simp] theorem resetBlock_turns : s.resetBlock.turns = s.turns := rfl
@[simp] theorem resetBlock_answers : s.resetBlock.answers = s.answers := rfl
@[simp] theorem resetBlock_queue (q : Port) : s.resetBlock.queue q = s.queue q := by cases q <;> rfl
end resetBlock

section setQueue
variable (s : State) (p : Port) (ws : List Word)
@[simp] theorem setQueue_cfg : (s.setQueue p ws).cfg = s.cfg := by cases p <;> rfl
@[simp] theorem setQueue_block : (s.setQueue p ws).block = s.block := by cases p <;> rfl
@[simp] theorem setQueue_turns : (s.setQueue p ws).turns = s.turns := by cases p <;> rfl
@[simp] theorem setQueue_answers : (s.setQueue p ws).answers = s.answers := by cases p <;> rfl
@[simp] theorem queue_setQueue_same : (s.setQueue p ws).queue p = ws := by cases p <;> rfl

theorem queue_setQueue_other {p q : Port} (h : q ≠ p) : (s.setQueue p ws).queue q = s.queue q := by
  cases p <;> cases q <;> first | rfl | exact absurd rfl h

theorem setQueue_self : s.setQueue p (s.queue p) = s := by cases p <;> rfl
end setQueue

section withTurns
variable (s : State) (ts : List Turn)
@[simp] theorem withTurns_cfg : (s.withTurns ts).cfg = s.cfg := rfl
@[simp] theorem withTurns_block : (s.withTurns ts).block = s.block := rfl
@[simp] theorem withTurns_turns : (s.withTurns ts).turns = ts := rfl
@[simp] theorem withTurns_answers : (s.withTurns ts).answers = s.answers := rfl
@[simp] theorem withTurns_queue (q : Port) : (s.withTurns ts).queue q = s.queue q := by cases q <;> rfl
end withTurns

section setWindow
variable (b : Block) (ch : Channel) (w : Window)
@[simp] theorem setWindow_window_same : (b.setWindow ch w).window ch = w := by cases ch <;> rfl
@[simp] theorem setWindow_sel : (b.setWindow ch w).sel = b.sel := by cases ch <;> rfl
@[simp] theorem setWindow_diagEn : (b.setWindow ch w).diagEn = b.diagEn := by cases ch <;> rfl
@[simp] theorem setWindow_diagOut : (b.setWindow ch w).diagOut = b.diagOut := by cases ch <;> rfl
@[simp] theorem setWindow_rx : (b.setWindow ch w).rx = b.rx := by cases ch <;> rfl
@[simp] theorem setWindow_published (c : Channel) : (b.setWindow ch w).published c = b.published c := by
  cases ch <;> cases c <;> rfl

theorem setWindow_window_other {ch c : Channel} (h : c ≠ ch) : (b.setWindow ch w).window c = b.window c := by
  cases ch <;> cases c <;> first | rfl | exact absurd rfl h
end setWindow

section publish
variable (b : Block) (ch : Channel) (v : Word)
@[simp] theorem publish_published_same : (b.publish ch v).published ch = v := by cases ch <;> rfl
@[simp] theorem publish_sel : (b.publish ch v).sel = b.sel := by cases ch <;> rfl
@[simp] theorem publish_diagEn : (b.publish ch v).diagEn = b.diagEn := by cases ch <;> rfl
@[simp] theorem publish_diagOut : (b.publish ch v).diagOut = b.diagOut := by cases ch <;> rfl
@[simp] theorem publish_rx : (b.publish ch v).rx = b.rx := by cases ch <;> rfl
@[simp] theorem publish_window (c : Channel) : (b.publish ch v).window c = b.window c := by
  cases ch <;> cases c <;> rfl

theorem publish_published_other {ch c : Channel} (h : c ≠ ch) : (b.publish ch v).published c = b.published c := by
  cases ch <;> cases c <;> first | rfl | exact absurd rfl h
end publish

@[simp] theorem window_with_sel (b : Block) (sel ch : Channel) :
    Block.window { b with sel := sel } ch = b.window ch := by cases ch <;> rfl
@[simp] theorem published_with_sel (b : Block) (sel ch : Channel) :
    Block.published { b with sel := sel } ch = b.published ch := by cases ch <;> rfl

@[simp] theorem flipChannel_flipChannel (ch : Channel) : flipChannel (flipChannel ch) = ch := by cases ch <;> rfl
theorem flipChannel_ne (ch : Channel) : flipChannel ch ≠ ch := by cases ch <;> decide

theorem eq_flipChannel_of_ne {ch c : Channel} (h : c ≠ ch) : c = flipChannel ch := by
  cases ch <;> cases c <;> first | rfl | exact absurd rfl h

end Sys2Proof.Machine
end

