-- ==== Sys2Proof/Laws/Ring.lean ====
section
/-! SUPPORT. The receive buffer: its registers' width, its invariant, and its commands as operations on the unread
bytes. -/

namespace Sys2Proof.Machine

variable {c : Config} {r : Ring}

/-! ### The registers of `CW` bits -/

/-- The legal capacities, as bounds. -/
theorem legal_cap (h : c.legal = true) : 2 ≤ c.rxCap ∧ c.rxCap ≤ 256 := by
  simp [Config.legal] at h; omega

/-- `CW` bits hold every slot number and every length (R11). -/
theorem rxCap_le_two_pow (c : Config) : c.rxCap ≤ 2 ^ c.cursorBits := by
  have := Nat.lt_log2_self (n := c.rxCap - 1)
  unfold Config.cursorBits; omega

/-- No narrower register does. -/
theorem two_pow_lt_rxCap (h : 2 ≤ c.rxCap) : 2 ^ (c.cursorBits - 1) < c.rxCap := by
  have := Nat.log2_self_le (n := c.rxCap - 1) (by omega)
  unfold Config.cursorBits; rw [Nat.add_sub_cancel]; omega

/-- No legal block needs more than the 8 bits the registers are kept in. -/
theorem cursorBits_le (h : c.legal = true) : c.cursorBits ≤ 8 := by
  obtain ⟨h2, h256⟩ := legal_cap h
  have : 2 ^ (c.cursorBits - 1) < 2 ^ 8 := Nat.lt_of_lt_of_le (two_pow_lt_rxCap h2) h256
  have := (Nat.pow_lt_pow_iff_right (by decide)).1 this
  omega

theorem counterValue_lt (c : Config) (x : Counter) : counterValue c x < 2 ^ c.cursorBits :=
  Nat.mod_lt _ (Nat.two_pow_pos _)

@[simp] theorem counterValue_zero : counterValue c 0 = 0 := Nat.zero_mod _

/-- What a register holds after a write: `CW` bits of what was written. -/
theorem counterOf_toNat (h : c.legal = true) (n : Nat) : (counterOf c n).toNat = n % 2 ^ c.cursorBits := by
  have : 2 ^ c.cursorBits ≤ 2 ^ 8 := Nat.pow_le_pow_right (by decide) (cursorBits_le h)
  have := Nat.mod_lt n (Nat.two_pow_pos c.cursorBits)
  rw [counterOf, BitVec.toNat_ofNat, Nat.mod_eq_of_lt (by omega)]

theorem counterValue_counterOf (h : c.legal = true) (n : Nat) :
    counterValue c (counterOf c n) = n % 2 ^ c.cursorBits := by
  rw [counterValue, counterOf_toNat h, Nat.mod_mod]

/-- A slot number or a length is kept whole. -/
theorem counterValue_counterOf_of_lt (h : c.legal = true) {n : Nat} (hn : n < c.rxCap) :
    counterValue c (counterOf c n) = n := by
  rw [counterValue_counterOf h, Nat.mod_eq_of_lt (Nat.lt_of_lt_of_le hn (rxCap_le_two_pow c))]

/-! ### The two writing commands, full and not, empty and not -/

theorem isFull_iff : r.isFull c = true ↔ r.lenValue c = c.rxCap - 1 := by simp [Ring.isFull]

theorem isEmpty_iff : r.isEmpty c = true ↔ r.lenValue c = 0 := by simp [Ring.isEmpty]

theorem insert_of_full (b : Byte) (h : r.lenValue c = c.rxCap - 1) : r.insert c b = r := by
  simp [Ring.insert, isFull_iff.2 h]

theorem insert_of_not_full (b : Byte) (h : r.lenValue c ≠ c.rxCap - 1) :
    r.insert c b = { r with
      buf := r.buf.set (r.wrValue c) b
      wr := counterOf c ((r.wrValue c + 1) % c.rxCap)
      len := counterOf c (r.lenValue c + 1) } := by
  simp [Ring.insert, isFull_iff, h, nextSlot]

theorem remove_of_empty (h : r.lenValue c = 0) : r.remove c = r := by simp [Ring.remove, isEmpty_iff, h]

theorem remove_of_not_empty (h : r.lenValue c ≠ 0) :
    r.remove c = { r with
      rd := counterOf c ((r.rdValue c + 1) % c.rxCap)
      len := counterOf c (r.lenValue c - 1)
      last := r.read (r.rdValue c) } := by
  simp [Ring.remove, isEmpty_iff, h, nextSlot]

@[simp] theorem insert_rd (b : Byte) : (r.insert c b).rd = r.rd := by simp only [Ring.insert]; split <;> rfl
@[simp] theorem insert_last (b : Byte) : (r.insert c b).last = r.last := by simp only [Ring.insert]; split <;> rfl
@[simp] theorem remove_buf : (r.remove c).buf = r.buf := by simp only [Ring.remove]; split <;> rfl
@[simp] theorem remove_wr : (r.remove c).wr = r.wr := by simp only [Ring.remove]; split <;> rfl
@[simp] theorem insert_rdValue (b : Byte) : (r.insert c b).rdValue c = r.rdValue c := by simp [Ring.rdValue]
@[simp] theorem remove_wrValue : (r.remove c).wrValue c = r.wrValue c := by simp [Ring.wrValue]

/-- What storing a byte leaves in the slots and the registers, where the invariant holds. -/
theorem insert_values (b : Byte) (hc : c.legal = true) (h : r.Inv c) (hf : r.lenValue c ≠ c.rxCap - 1) :
    (r.insert c b).buf = r.buf.set (r.wrValue c) b ∧ (r.insert c b).wrValue c = (r.wrValue c + 1) % c.rxCap ∧
      (r.insert c b).lenValue c = r.lenValue c + 1 := by
  obtain ⟨h2, -⟩ := legal_cap hc
  obtain ⟨-, hl, -⟩ := h
  rw [insert_of_not_full b hf]
  exact ⟨rfl, counterValue_counterOf_of_lt hc (Nat.mod_lt _ (by omega)), counterValue_counterOf_of_lt hc (by omega)⟩

/-- What removing a byte leaves in the registers, where the invariant holds. -/
theorem remove_values (hc : c.legal = true) (h : r.Inv c) (hz : r.lenValue c ≠ 0) :
    (r.remove c).rdValue c = (r.rdValue c + 1) % c.rxCap ∧ (r.remove c).lenValue c = r.lenValue c - 1 ∧
      (r.remove c).last = r.read (r.rdValue c) := by
  obtain ⟨h2, -⟩ := legal_cap hc
  obtain ⟨-, hl, -⟩ := h
  rw [remove_of_not_empty hz]
  exact ⟨counterValue_counterOf_of_lt hc (Nat.mod_lt _ (by omega)), counterValue_counterOf_of_lt hc (by omega), rfl⟩

theorem front_of_empty (h : r.lenValue c = 0) : r.front c = r.last := by simp [Ring.front, isEmpty_iff, h]

theorem front_of_not_empty (h : r.lenValue c ≠ 0) : r.front c = r.read (r.rdValue c) := by
  simp [Ring.front, isEmpty_iff, h]

/-! ### The invariant -/

/-- A slot that exists is read from the array. -/
theorem getElem?_eq_some_read {i : Nat} (h : i < r.buf.length) : r.buf[i]? = some (r.read i) := by
  simp [Ring.read, List.getElem?_eq_getElem h]

theorem reset_ring_inv (h : c.legal = true) : (Ring.reset c).Inv c := by
  obtain ⟨h2, -⟩ := legal_cap h
  have h0 : counterValue c (0 : Counter) = 0 := counterValue_zero
  simp only [Ring.Inv, Ring.reset, Ring.rdValue, Ring.wrValue, Ring.lenValue, h0, List.length_replicate]
  exact ⟨trivial, by omega, by omega, by omega, (Nat.zero_mod _).symm⟩

theorem insert_inv (b : Byte) (hc : c.legal = true) (h : r.Inv c) : (r.insert c b).Inv c := by
  obtain ⟨h2, -⟩ := legal_cap hc
  by_cases hf : r.lenValue c = c.rxCap - 1
  · rwa [insert_of_full b hf]
  · obtain ⟨e1, e2, e3⟩ := insert_values b hc h hf
    obtain ⟨hb, hl, hr, hw, he⟩ := h
    refine ⟨by simpa [e1] using hb, by omega, by simpa using hr, e2 ▸ Nat.mod_lt _ (by omega), ?_⟩
    rw [e2, e3, insert_rdValue, he, Nat.mod_add_mod, Nat.add_assoc]

theorem remove_inv (hc : c.legal = true) (h : r.Inv c) : (r.remove c).Inv c := by
  obtain ⟨h2, -⟩ := legal_cap hc
  by_cases hz : r.lenValue c = 0
  · rwa [remove_of_empty hz]
  · obtain ⟨e1, e2, -⟩ := remove_values hc h hz
    obtain ⟨hb, hl, hr, hw, he⟩ := h
    refine ⟨by simpa using hb, by omega, e1 ▸ Nat.mod_lt _ (by omega), by simpa using hw, ?_⟩
    rw [e1, e2, remove_wrValue, he, Nat.mod_add_mod]
    congr 1; omega

/-! ### The unread bytes -/

@[simp] theorem unread_length : (r.unread c).length = r.lenValue c := by simp [Ring.unread]

theorem unread_eq_nil_iff : r.unread c = [] ↔ r.lenValue c = 0 := by
  rw [← List.length_eq_zero_iff, unread_length]

/-- The k-th unread byte. -/
theorem unread_getElem? {k : Nat} (h : k < r.lenValue c) :
    (r.unread c)[k]? = some (r.read ((r.rdValue c + k) % c.rxCap)) := by
  simp [Ring.unread, h]

/-- No unread byte lies in the slot the write cursor names: one slot always holds none (R155 (c)). -/
theorem unread_slot_ne_wr (h : r.Inv c) {k : Nat} (hk : k < r.lenValue c) :
    (r.rdValue c + k) % c.rxCap ≠ r.wrValue c := by
  obtain ⟨-, hl, hr, -, he⟩ := h
  rw [he]
  generalize r.rdValue c = d at *
  generalize r.lenValue c = n at *
  rcases Nat.lt_or_ge (d + k) c.rxCap with h1 | h1 <;> rcases Nat.lt_or_ge (d + n) c.rxCap with h2 | h2
  · rw [Nat.mod_eq_of_lt h1, Nat.mod_eq_of_lt h2]; omega
  · rw [Nat.mod_eq_of_lt h1, Nat.mod_eq_sub_mod h2, Nat.mod_eq_of_lt (by omega)]; omega
  · omega
  · rw [Nat.mod_eq_sub_mod h1, Nat.mod_eq_of_lt (by omega), Nat.mod_eq_sub_mod h2, Nat.mod_eq_of_lt (by omega)]
    omega

/-- A byte stored is the youngest unread one. -/
theorem unread_insert (b : Byte) (hc : c.legal = true) (h : r.Inv c) (hf : r.lenValue c ≠ c.rxCap - 1) :
    (r.insert c b).unread c = r.unread c ++ [b] := by
  obtain ⟨e1, -, e3⟩ := insert_values b hc h hf
  have hw : r.wrValue c < r.buf.length := by rw [h.1]; exact h.2.2.2.1
  simp only [Ring.unread, Ring.read, e1, e3, insert_rdValue, List.range_succ, List.map_append, List.map_cons,
    List.map_nil]
  congr 1
  · refine List.map_congr_left fun k hk => ?_
    rw [List.getElem?_set_ne (Ne.symm (unread_slot_ne_wr h (List.mem_range.1 hk)))]
  · rw [← h.2.2.2.2, List.getElem?_set_self hw, Option.getD_some]

/-- A byte removed is the oldest unread one. -/
theorem unread_eq_cons (hc : c.legal = true) (h : r.Inv c) (hz : r.lenValue c ≠ 0) :
    r.unread c = r.read (r.rdValue c) :: (r.remove c).unread c := by
  obtain ⟨e1, e2, -⟩ := remove_values hc h hz
  obtain ⟨n, hn⟩ := Nat.exists_eq_succ_of_ne_zero hz
  simp only [Ring.unread, Ring.read, e1, e2, remove_buf, hn, Nat.succ_sub_one, Nat.succ_eq_add_one,
    List.range_succ_eq_map, List.map_cons, List.map_map]
  congr 1
  · rw [Nat.add_zero, Nat.mod_eq_of_lt h.2.2.1]
  · refine List.map_congr_left fun k _ => ?_
    simp only [Function.comp, Nat.mod_add_mod, Nat.succ_eq_add_one]
    rw [show r.rdValue c + (k + 1) = r.rdValue c + 1 + k by omega]

end Sys2Proof.Machine
end

