-- ==== Sys2Proof/Laws/Window.lean ====
section
/-! SUPPORT. The sliding window: what an insertion does to the slots, the sum and the samples in order of age. -/

namespace Sys2Proof.Machine

/-- A slot after a write. -/
theorem getElem_write (w : Window) (i : BitVec 3) (x : Sample) (k : Nat) (hk : k < 8) :
    (w.write i x)[k] = if i.toNat = k then x else w.slots[k] := by
  simp [Window.write, Vector.getElem_set]

theorem insert_read_same (w : Window) (x : Sample) : (w.insert x).read w.cursor = x := by
  simp [Window.read, Window.insert, getElem_write]

theorem insert_read_other (w : Window) (x : Sample) {i : BitVec 3} (h : i ≠ w.cursor) :
    (w.insert x).read i = w.read i := by
  have : w.cursor.toNat ≠ i.toNat := fun e => h (BitVec.eq_of_toNat_eq e.symm)
  simp [Window.read, Window.insert, getElem_write, this]

theorem insert_sum (w : Window) (x : Sample) :
    (w.insert x).sum.toNat = (w.sum.toNat + 2 ^ 16 - (w.read w.cursor).toNat + x.toNat) % 2 ^ 16 := by
  simp [Window.insert, slideSum]

theorem nextCursor_eq (i : BitVec 3) : nextCursor i = i + 1 := by
  revert i; decide

theorem insert_cursor (w : Window) (x : Sample) : (w.insert x).cursor = w.cursor + 1 := nextCursor_eq _

/-- A window's total splits at any slot: some remainder does not depend on that slot. -/
theorem total_write (w : Window) (i : BitVec 3) (x : Sample) (s : Word) (c : BitVec 3) :
    ∃ r, w.total = r + (w.read i).toNat ∧
      Window.total { slots := w.write i x, sum := s, cursor := c } = r + x.toNat := by
  obtain ⟨k, hk⟩ : ∃ k : Fin 8, i = BitVec.ofFin k := ⟨i.toFin, rfl⟩
  subst hk
  refine ⟨w.total - (w.read (BitVec.ofFin k)).toNat, ?_, ?_⟩ <;>
    fin_cases k <;> simp [Window.total, Window.read, getElem_write] <;> omega

/-- Every slot counts in the total. -/
theorem read_le_total (w : Window) (i : BitVec 3) : (w.read i).toNat ≤ w.total := by
  obtain ⟨r, h, -⟩ := total_write w i 0 0 0
  omega

/-- A window whose slots are legal samples has a total of at most 8 times the largest. -/
theorem total_le (w : Window) (m : Nat) (h : ∀ i : Fin 8, (w.slots[i]).toNat ≤ m) : w.total ≤ 8 * m := by
  have h0 := h 0; have h1 := h 1; have h2 := h 2; have h3 := h 3
  have h4 := h 4; have h5 := h 5; have h6 := h 6; have h7 := h 7
  simp only [Fin.getElem_fin] at h0 h1 h2 h3 h4 h5 h6 h7
  simp only [Window.total]
  exact (by omega : ∀ a b c d e f g k : Nat, a ≤ m → b ≤ m → c ≤ m → d ≤ m → e ≤ m → f ≤ m → g ≤ m → k ≤ m →
    a + b + c + d + e + f + g + k ≤ 8 * m) _ _ _ _ _ _ _ _ h0 h1 h2 h3 h4 h5 h6 h7

/-- The largest total of a legal block: it fits the sum's 16 bits (R10). -/
theorem max_total_le {c : Config} (h : c.legal = true) : 8 * (2 ^ c.adcBits - 1) ≤ 32760 := by
  have hb : c.adcBits ≤ 12 := by simp [Config.legal] at h; omega
  have : 2 ^ c.adcBits ≤ 2 ^ 12 := Nat.pow_le_pow_right (by decide) hb
  omega

/-- What an insertion does to a window that meets the running-sum invariant: no wrap, and the invariant again. -/
theorem insert_exact (w : Window) (x : Sample) (h : w.sum.toNat = w.total) (hb : w.total ≤ 32760) :
    (w.read w.cursor).toNat ≤ w.sum.toNat ∧
      (w.insert x).sum.toNat = w.sum.toNat - (w.read w.cursor).toNat + x.toNat ∧
      (w.insert x).sum.toNat = (w.insert x).total := by
  obtain ⟨r, h1, h2⟩ := total_write w w.cursor x (w.insert x).sum (w.insert x).cursor
  have hx := x.isLt
  have h3 : (w.insert x).total = r + x.toNat := h2
  have h4 := insert_sum w x
  refine ⟨by omega, by omega, by omega⟩

/-- An insertion of a legal sample keeps the slots legal. -/
theorem insert_inRange {c : Config} (w : Window) (x : Sample) (hx : x.toNat < 2 ^ c.adcBits)
    (h : ∀ i : Fin 8, (w.slots[i]).toNat < 2 ^ c.adcBits) (i : Fin 8) :
    ((w.insert x).slots[i]).toNat < 2 ^ c.adcBits := by
  have hi := h i
  simp only [Window.insert, Fin.getElem_fin, getElem_write] at hi ⊢
  split <;> assumption

/-- Going one further from the next cursor position is going one more from this one, and does not come back to it
within 7. -/
theorem cursor_succ_add : ∀ (a : BitVec 3) (k : Fin 7),
    a + 1 + BitVec.ofNat 3 k = a + BitVec.ofNat 3 (k + 1) ∧ a + BitVec.ofNat 3 (k + 1) ≠ a := by
  decide

/-- The samples in order of age after an insertion: the oldest goes, the new one is the youngest. -/
theorem insert_samples (w : Window) (x : Sample) : (w.insert x).samples = w.samples.tail ++ [x] := by
  have older (k : Fin 7) : (w.insert x).read (w.cursor + 1 + BitVec.ofNat 3 k) =
      w.read (w.cursor + BitVec.ofNat 3 (k + 1)) := by
    obtain ⟨h1, h2⟩ := cursor_succ_add w.cursor k
    rw [h1, insert_read_other w x h2]
  have youngest : (w.insert x).read (w.cursor + 1 + BitVec.ofNat 3 7) = x := by
    rw [(by decide : ∀ a : BitVec 3, a + 1 + BitVec.ofNat 3 7 = a) w.cursor, insert_read_same]
  simp only [Window.samples, insert_cursor, show List.range 8 = [0, 1, 2, 3, 4, 5, 6, 7] from rfl, List.map_cons,
    List.map_nil, List.tail_cons, List.cons_append, List.nil_append, youngest]
  exact congrArg₂ _ (older 0) (congrArg₂ _ (older 1) (congrArg₂ _ (older 2) (congrArg₂ _ (older 3)
    (congrArg₂ _ (older 4) (congrArg₂ _ (older 5) (congrArg₂ _ (older 6) rfl))))))

/-- A window's total is the sum of its samples in order of age. -/
theorem total_eq_sum_samples (w : Window) : w.total = (w.samples.map (·.toNat)).sum := by
  obtain ⟨slots, sum, cursor⟩ := w
  obtain ⟨k, rfl⟩ : ∃ k : Fin 8, cursor = BitVec.ofFin k := ⟨cursor.toFin, rfl⟩
  fin_cases k <;>
    simp [Window.total, Window.samples, Window.read, show List.range 8 = [0, 1, 2, 3, 4, 5, 6, 7] from rfl] <;> omega

@[simp] theorem samples_length (w : Window) : w.samples.length = 8 := by simp [Window.samples]

end Sys2Proof.Machine
end

