-- ==== Sys2Proof/Laws/Exec.lean ====
section
/-! SUPPORT. One lemma per meaning, and what all seven have in common. -/

namespace Sys2Proof.Machine

/-- The block after ADC_DONE of `x` on `b`. -/
def adcDoneBlock (x : Sample) (b : Block) : Block :=
  { (b.setWindow b.sel ((b.window b.sel).insert x)).publish b.sel ((b.window b.sel).insert x).sum with
    sel := flipChannel b.sel }

section adcDoneBlock
variable (x : Sample) (b : Block)
@[simp] theorem adcDone_window_same : (adcDoneBlock x b).window b.sel = (b.window b.sel).insert x :=
  (window_with_sel _ _ _).trans (by simp)
@[simp] theorem adcDone_published_same : (adcDoneBlock x b).published b.sel = ((b.window b.sel).insert x).sum :=
  (published_with_sel _ _ _).trans (by simp)
@[simp] theorem adcDone_sel : (adcDoneBlock x b).sel = flipChannel b.sel := rfl
@[simp] theorem adcDone_diagEn : (adcDoneBlock x b).diagEn = b.diagEn := by simp [adcDoneBlock]
@[simp] theorem adcDone_diagOut : (adcDoneBlock x b).diagOut = b.diagOut := by simp [adcDoneBlock]
@[simp] theorem adcDone_rx : (adcDoneBlock x b).rx = b.rx := by simp [adcDoneBlock]

theorem adcDone_window_other {ch : Channel} (h : ch ≠ b.sel) : (adcDoneBlock x b).window ch = b.window ch :=
  (window_with_sel _ _ _).trans (by simp [setWindow_window_other _ _ h])

theorem adcDone_published_other {ch : Channel} (h : ch ≠ b.sel) :
    (adcDoneBlock x b).published ch = b.published ch :=
  (published_with_sel _ _ _).trans (by simp [publish_published_other _ _ h])
end adcDoneBlock

section meanings
variable (s : State)
theorem exec_adcDone (x : Sample) : exec (.adcDone x) s =
    .next (s.complete .adc (adcDoneBlock x s.block) ((s.block.window s.block.sel).insert x).sum) := rfl
theorem exec_rxByte (b : Byte) : exec (.rxByte b) s =
    .next (s.complete .rx { s.block with rx := s.block.rx.insert s.cfg b } 0) := rfl
theorem exec_tmrOvf : exec .tmrOvf s =
    .next (s.complete .tmr { s.block with diagOut := s.block.diagOut ^^ s.block.diagEn } 0) := by
  cases h : s.block.diagEn <;> simp [exec, execTmrOvf, h]
theorem exec_rdSum (ch : Channel) : exec (.rdSum ch) s =
    .next (s.complete .host s.block (s.block.published ch)) := rfl
theorem exec_rxEmpty : exec .rxEmpty s =
    .next (s.complete .host s.block (if s.block.rx.lenValue s.cfg = 0 then 1 else 0)) := by
  simp [exec, execRxEmpty, zextBool, isEmpty_iff]
theorem exec_rxRemove : exec .rxRemove s = .next (s.complete .host
    { s.block with rx := s.block.rx.remove s.cfg } ((s.block.rx.front s.cfg).setWidth 16)) := rfl
theorem exec_cfgWr (en : Bool) : exec (.cfgWr en) s =
    .next (s.complete .host { s.block with diagEn := en } 0) := rfl
end meanings

/-- Every command completes: a new block, one response without error on the port of its kind, nothing else. -/
theorem exec_eq_complete (i : Instr) (s : State) : ∃ b d, exec i s = .next (s.complete i.port b d) := by
  cases i with
  | adcDone x => exact ⟨_, _, exec_adcDone s x⟩
  | rxByte b => exact ⟨_, _, exec_rxByte s b⟩
  | tmrOvf => exact ⟨_, _, exec_tmrOvf s⟩
  | rdSum ch => exact ⟨_, _, exec_rdSum s ch⟩
  | rxEmpty => exact ⟨_, _, exec_rxEmpty s⟩
  | rxRemove => exact ⟨_, _, exec_rxRemove s⟩
  | cfgWr en => exact ⟨_, _, exec_cfgWr s en⟩

/-- The same, of a next state already at hand. -/
theorem exec_cases {i : Instr} {s t : State} (h : exec i s = .next t) : ∃ b d, t = s.complete i.port b d := by
  obtain ⟨b, d, e⟩ := exec_eq_complete i s
  exact ⟨b, d, (Host.Outcome.next.inj (e.symm.trans h)).symm⟩

/-- What one command may do to the block, command by command. -/
theorem exec_block {i : Instr} {s t : State} (h : exec i s = .next t) :
    (∃ x, i = .adcDone x ∧ t.block = adcDoneBlock x s.block) ∨
    (∃ b, i = .rxByte b ∧ t.block = { s.block with rx := s.block.rx.insert s.cfg b }) ∨
    (i = .tmrOvf ∧ t.block = { s.block with diagOut := s.block.diagOut ^^ s.block.diagEn }) ∨
    (i = .rxRemove ∧ t.block = { s.block with rx := s.block.rx.remove s.cfg }) ∨
    (∃ e, i = .cfgWr e ∧ t.block = { s.block with diagEn := e }) ∨
    ((i = .rxEmpty ∨ ∃ ch, i = .rdSum ch) ∧ t.block = s.block) := by
  cases i with
  | adcDone x => exact .inl ⟨x, rfl, by cases h; rfl⟩
  | rxByte b => exact .inr (.inl ⟨b, rfl, by cases h; rfl⟩)
  | tmrOvf => rw [exec_tmrOvf] at h; exact .inr (.inr (.inl ⟨rfl, by cases h; rfl⟩))
  | rdSum ch => exact .inr (.inr (.inr (.inr (.inr ⟨.inr ⟨ch, rfl⟩, by cases h; rfl⟩))))
  | rxEmpty => exact .inr (.inr (.inr (.inr (.inr ⟨.inl rfl, by cases h; rfl⟩))))
  | rxRemove => exact .inr (.inr (.inr (.inl ⟨rfl, by cases h; rfl⟩)))
  | cfgWr e => exact .inr (.inr (.inr (.inr (.inl ⟨e, rfl, by cases h; rfl⟩))))

end Sys2Proof.Machine
end

