-- ==== Sys2Proof/Laws/Invariant.lean ====
section
/-! SUPPORT. The invariants of R34 to R36: how they read for both channels at once, and that reset and each command
meet them. -/

namespace Sys2Proof.Machine

theorem inv_iff (s : State) :
    s.Inv ↔ s.cfg.legal = true ∧ (∀ ch, s.block.ChannelInv s.cfg ch) ∧ s.block.rx.Inv s.cfg := by
  constructor
  · rintro ⟨a, b, c, d⟩; exact ⟨a, fun ch => by cases ch <;> assumption, d⟩
  · rintro ⟨a, b, d⟩; exact ⟨a, b _, b _, d⟩

/-- The invariants depend on the parameters and the block alone. -/
theorem inv_congr {s t : State} (hc : t.cfg = s.cfg) (hb : t.block = s.block) : t.Inv ↔ s.Inv := by
  rw [inv_iff, inv_iff, hc, hb]

/-- A channel's invariants depend on its window and its published sum alone. -/
theorem channelInv_congr {c : Config} {a b : Block} {ch : Channel} (hw : b.window ch = a.window ch)
    (hp : b.published ch = a.published ch) : b.ChannelInv c ch ↔ a.ChannelInv c ch := by
  simp only [Block.ChannelInv, hw, hp]

theorem resetWith_inv {c : Config} (h : c.legal = true) : (State.resetWith c).Inv := by
  refine ⟨h, ⟨rfl, rfl, fun i => ?_⟩, ⟨rfl, rfl, fun i => ?_⟩, reset_ring_inv h⟩ <;>
    simp [State.resetWith, Block.window, Block.reset, Window.reset]

/-- Where the invariants hold, a running sum is at most 8 times the largest sample. -/
theorem inv_total_le {s : State} (h : s.Inv) (ch : Channel) :
    (s.block.window ch).total ≤ 8 * (2 ^ s.cfg.adcBits - 1) :=
  total_le _ _ fun i => Nat.le_sub_one_of_lt ((((inv_iff s).1 h).2.1 ch).2.2 i)

/-- An ADC_DONE of an admitted sample keeps both channels' invariants. -/
theorem adcDone_channelInv {s : State} (h : s.Inv) {x : Sample} (hx : x.toNat < 2 ^ s.cfg.adcBits) (ch : Channel) :
    (adcDoneBlock x s.block).ChannelInv s.cfg ch := by
  have hb := inv_total_le h s.block.sel
  obtain ⟨a, b, -⟩ := (inv_iff s).1 h
  have hm := max_total_le a
  by_cases hc : ch = s.block.sel
  · subst hc
    obtain ⟨h1, h2, h3⟩ := b s.block.sel
    simp only [Block.ChannelInv, adcDone_window_same, adcDone_published_same]
    exact ⟨(insert_exact _ x h1 (by omega)).2.2, trivial, insert_inRange _ _ hx h3⟩
  · exact (channelInv_congr (adcDone_window_other _ _ hc) (adcDone_published_other _ _ hc)).2 (b ch)

/-- Every command the block admits keeps the invariants. -/
theorem exec_keeps_inv {i : Instr} {s t : State} (h : s.Inv) (hw : i.wf s.cfg = true) (he : exec i s = .next t) :
    t.Inv := by
  obtain ⟨a, b, d⟩ := (inv_iff s).1 h
  have hc : t.cfg = s.cfg := by obtain ⟨b', d', rfl⟩ := exec_cases he; rfl
  rw [inv_iff, hc]
  rcases exec_block he with ⟨x, rfl, e⟩ | ⟨y, rfl, e⟩ | ⟨rfl, e⟩ | ⟨rfl, e⟩ | ⟨y, rfl, e⟩ | ⟨-, e⟩ <;> rw [e]
  · exact ⟨a, adcDone_channelInv h (by simpa [Instr.wf] using hw), by simpa using d⟩
  · exact ⟨a, fun ch => (channelInv_congr (by cases ch <;> rfl) (by cases ch <;> rfl)).2 (b ch), insert_inv y a d⟩
  · exact ⟨a, fun ch => (channelInv_congr (by cases ch <;> rfl) (by cases ch <;> rfl)).2 (b ch), d⟩
  · exact ⟨a, fun ch => (channelInv_congr (by cases ch <;> rfl) (by cases ch <;> rfl)).2 (b ch), remove_inv a d⟩
  · exact ⟨a, fun ch => (channelInv_congr (by cases ch <;> rfl) (by cases ch <;> rfl)).2 (b ch), d⟩
  · exact ⟨a, b, d⟩

end Sys2Proof.Machine
end

