-- ==== Sys2Proof/Laws/PerInstr.lean ====
section
/-! SUPPORT. Statements made per command kind, one lemma per constructor of `Instr`. -/

namespace Sys2Proof.Laws

/-- "Event kinds have OP bit 15 clear; host kinds have it set" (30_encoding.md R72). -/
def EventBit.Statement (i : Instr) : Prop := (encode i).getLsbD 15 = decide (i.port = .host)

/-- Bit 15 of a command's word is the top bit of its `OP`. -/
theorem encode_getLsbD_15 (i : Instr) : (encode i).getLsbD 15 = (opOf i).getLsbD 3 := by
  rw [encode, BitVec.getLsbD_append, if_neg (by decide)]

theorem EventBit.adcDone (x : Sample) : EventBit.Statement (.adcDone x) :=
  (encode_getLsbD_15 (.adcDone x)).trans (by change BitVec.getLsbD 1#4 3 = false; decide)
theorem EventBit.rxByte (b : Byte) : EventBit.Statement (.rxByte b) :=
  (encode_getLsbD_15 (.rxByte b)).trans (by change BitVec.getLsbD 2#4 3 = false; decide)
theorem EventBit.tmrOvf : EventBit.Statement .tmrOvf :=
  (encode_getLsbD_15 .tmrOvf).trans (by change BitVec.getLsbD 3#4 3 = false; decide)
theorem EventBit.rdSum (ch : Channel) : EventBit.Statement (.rdSum ch) :=
  (encode_getLsbD_15 (.rdSum ch)).trans (by change BitVec.getLsbD 8#4 3 = true; decide)
theorem EventBit.rxEmpty : EventBit.Statement .rxEmpty :=
  (encode_getLsbD_15 .rxEmpty).trans (by change BitVec.getLsbD 9#4 3 = true; decide)
theorem EventBit.rxRemove : EventBit.Statement .rxRemove :=
  (encode_getLsbD_15 .rxRemove).trans (by change BitVec.getLsbD 10#4 3 = true; decide)
theorem EventBit.cfgWr (e : Bool) : EventBit.Statement (.cfgWr e) :=
  (encode_getLsbD_15 (.cfgWr e)).trans (by change BitVec.getLsbD 11#4 3 = true; decide)

end Sys2Proof.Laws
end

