-- ==== Sys2Proof/Laws/Step.lean ====
section
/-! SUPPORT. What one step can do, said once. -/

namespace Sys2Proof.Machine

theorem step_no_turn {s : State} (h : s.turns = []) : step s = .next s := by
  simp [step, State.fetched, State.taken, h]

theorem step_reset {s : State} {ts : List Turn} (h : s.turns = .reset :: ts) :
    step s = .next (State.resetBlock (s.withTurns ts)) := by
  simp [step, State.fetched, State.taken, h]

theorem step_nothing_presented {s : State} {p : Port} {ts : List Turn} (h : s.turns = .serve p :: ts)
    (hq : s.queue p = []) : step s = .next (s.withTurns ts) := by
  have : s.setQueue p [] = s := hq ▸ setQueue_self s p
  simp [step, State.fetched, State.taken, h, hq, this]

theorem step_legal {s : State} {p : Port} {w : Word} {ws : List Word} {ts : List Turn} {i : Instr}
    (h : s.Offers p w ws ts) (hd : decode s.cfg p w = .legal i) :
    step s = exec i ((s.setQueue p ws).withTurns ts) := by
  obtain ⟨ht, hq⟩ := h
  simp [step, State.fetched, State.taken, ht, hq, hd]

theorem step_illegal {s : State} {p : Port} {w : Word} {ws : List Word} {ts : List Turn} {why : Illegal}
    (h : s.Offers p w ws ts) (hd : decode s.cfg p w = .illegal why) :
    step s = .next (State.reject ((s.setQueue p ws).withTurns ts) p) := by
  obtain ⟨ht, hq⟩ := h
  simp [step, State.fetched, State.taken, ht, hq, hd]

/-- Every step is one of these: nothing, a turn that finds nothing, a reset, a rejection, or one command executed. -/
theorem step_cases {s t : State} (h : step s = .next t) :
    (s.turns = [] ∧ t = s) ∨
    (∃ p ts, s.turns = .serve p :: ts ∧ s.queue p = [] ∧ t = (s.withTurns ts)) ∨
    (∃ ts, s.turns = .reset :: ts ∧ t = State.resetBlock (s.withTurns ts)) ∨
    (∃ p w ws ts why, s.Offers p w ws ts ∧ decode s.cfg p w = .illegal why ∧
      t = State.reject ((s.setQueue p ws).withTurns ts) p) ∨
    (∃ p w ws ts i, s.Offers p w ws ts ∧ decode s.cfg p w = .legal i ∧
      exec i ((s.setQueue p ws).withTurns ts) = .next t) := by
  match ht : s.turns with
  | [] => exact .inl ⟨rfl, Host.Outcome.next.inj (h.symm.trans (step_no_turn ht))⟩
  | .reset :: ts => exact .inr (.inr (.inl ⟨ts, rfl, Host.Outcome.next.inj (h.symm.trans (step_reset ht))⟩))
  | .serve p :: ts =>
    match hq : s.queue p with
    | [] =>
      exact .inr (.inl ⟨p, ts, rfl, hq, Host.Outcome.next.inj (h.symm.trans (step_nothing_presented ht hq))⟩)
    | w :: ws =>
      match hd : decode s.cfg p w with
      | .legal i => exact .inr (.inr (.inr (.inr ⟨p, w, ws, ts, i, ⟨ht, hq⟩, hd, (step_legal ⟨ht, hq⟩ hd) ▸ h⟩)))
      | .illegal why =>
        exact .inr (.inr (.inr (.inl ⟨p, w, ws, ts, why, ⟨ht, hq⟩, hd,
          Host.Outcome.next.inj (h.symm.trans (step_illegal ⟨ht, hq⟩ hd))⟩)))

end Sys2Proof.Machine
end

