-- ==== Sys2Proof/Laws/Run.lean ====
section
/-! SUPPORT. Runs: one step at a time, and the induction over them packaged once. -/

namespace Sys2Proof.Machine

/-- One step always gives a next state. -/
theorem step_next (s : State) : ∃ t, step s = .next t := by
  match ht : s.turns with
  | [] => exact ⟨_, step_no_turn ht⟩
  | .reset :: ts => exact ⟨_, step_reset ht⟩
  | .serve p :: ts =>
    match hq : s.queue p with
    | [] => exact ⟨_, step_nothing_presented ht hq⟩
    | w :: ws =>
      match hd : decode s.cfg p w with
      | .legal i =>
        obtain ⟨b, d, e⟩ := exec_eq_complete i ((s.setQueue p ws).withTurns ts)
        exact ⟨_, (step_legal ⟨ht, hq⟩ hd).trans e⟩
      | .illegal _ => exact ⟨_, step_illegal ⟨ht, hq⟩ hd⟩

theorem run_succ {n : Nat} {s u : State} (h : step s = .next u) :
    Host.Core.run Sys2Proof.core (n + 1) s = Host.Core.run Sys2Proof.core n u := by
  have h' : Sys2Proof.core.step s = .next u := h
  simp only [Host.Core.run, h']

/-- What holds between a state and itself, and passes from the rest of a run to the run one step longer, holds between
the ends of every run. -/
theorem run_induction {R : State → State → Prop} (refl : ∀ s, R s s)
    (head : ∀ s u t, step s = .next u → R u t → R s t) (n : Nat) (s t : State)
    (h : Host.Core.run Sys2Proof.core n s = .next t) : R s t := by
  induction n generalizing s with
  | zero => cases h; exact refl _
  | succ n ih =>
    obtain ⟨u, hu⟩ := step_next s
    rw [run_succ hu] at h
    exact head _ _ _ hu (ih _ h)

theorem execAll_cons {i : Instr} {is : List Instr} {s u : State} (h : exec i s = .next u) :
    execAll (i :: is) s = execAll is u := by
  simp only [execAll, h]

theorem history_cons {i : Instr} {is : List Instr} {s u : State} (h : exec i s = .next u) :
    history (i :: is) s = { before := s, instr := i, after := u } :: history is u := by
  simp only [history, h]

/-- What holds between a state and itself, and passes from the rest of a list of commands to the list with one more in
front, holds between the ends of executing every list. -/
theorem execAll_induction {R : State → State → List Instr → Prop} (refl : ∀ s, R s s [])
    (head : ∀ i is s u t, exec i s = .next u → R u t is → R s t (i :: is)) (is : List Instr) (s t : State)
    (h : execAll is s = .next t) : R s t is := by
  induction is generalizing s with
  | nil => cases h; exact refl _
  | cons i is ih =>
    obtain ⟨b, d, he⟩ := exec_eq_complete i s
    rw [execAll_cons he] at h
    exact head _ _ _ _ _ he (ih _ h)

end Sys2Proof.Machine
end

