-- ==== Sys2Proof/Tests/Slice0.lean ====
section
/-! SUPPORT. Tests. Every expected value is the spec's: the words and vectors of spec/95_test_vectors.md (named by their
ids), or written out bit by bit from 30_encoding.md section 2. The last part shows, for every obligation that has
hypotheses, a state that meets them. -/

namespace Sys2Proof.Tests

open Sys2Proof.Machine

/-! ### Well-formedness: each check refuses an ill-formed term -/

theorem test_wf_refuses_sample_1024 : Instr.wf Config.standard (.adcDone 1024) = false := by decide
theorem test_wf_accepts_sample_1023 : Instr.wf Config.standard (.adcDone 1023) = true := by decide
theorem test_legal_refuses_adcBits_0 : Config.legal { Config.standard with adcBits := 0 } = false := by decide
theorem test_legal_refuses_adcBits_13 : Config.legal { Config.standard with adcBits := 13 } = false := by decide
theorem test_legal_refuses_rxCap_1 : Config.legal { Config.standard with rxCap := 1 } = false := by decide
theorem test_legal_refuses_rxCap_257 : Config.legal { Config.standard with rxCap := 257 } = false := by decide
theorem test_legal_refuses_equal_pins : Config.legal { Config.standard with chPin0 := 5, chPin1 := 5 } = false := by
  decide
theorem test_legal_takes_any_distinct_pins : Config.legal { Config.standard with chPin0 := 7, chPin1 := 3 } = true := by
  decide

/-! ### Decoding: words written out bit by bit from the formats, `OP` first -/

theorem test_decode_adcDone : decode Config.standard .adc 0b0001001111111111 = .legal (.adcDone 1023) := by decide
theorem test_decode_rxByte : decode Config.standard .rx 0b0010000001000001 = .legal (.rxByte 0x41) := by decide
theorem test_decode_tmrOvf : decode Config.standard .tmr 0b0011000000000000 = .legal .tmrOvf := by decide
theorem test_decode_rdSum : decode Config.standard .host 0b1000000000000001 = .legal (.rdSum .ch1) := by decide
theorem test_decode_rxEmpty : decode Config.standard .host 0b1001000000000000 = .legal .rxEmpty := by decide
theorem test_decode_rxRemove : decode Config.standard .host 0b1010000000000000 = .legal .rxRemove := by decide
theorem test_decode_cfgWr : decode Config.standard .host 0b1011000000000001 = .legal (.cfgWr true) := by decide
/-- A8: the widest sample, legal only with `ADC_BITS = 12`. -/
theorem test_decode_sample_4095 : decode { Config.standard with adcBits := 12 } .adc 0x1FFF = .legal (.adcDone 4095) ∧
    decode Config.standard .adc 0x1FFF = .illegal .reservedOperand := by decide
/-- A6, B5, T5, S5, E5, M5, G4: one bit too many in each format. -/
theorem test_decode_reserved_bits : ∀ k ∈ [(Port.adc, (0x1400 : Word)), (.rx, 0x2100), (.tmr, 0x3001), (.host, 0x8002),
    (.host, 0x9001), (.host, 0xA001), (.host, 0xB002)], decode Config.standard k.1 k.2 = .illegal .reservedOperand := by
  decide
/-- X1 to X3: reserved `OP` values. -/
theorem test_decode_reserved_op : [(0x0000 : Word), 0x4000, 0x7FFF, 0xC000, 0xFFFF].all
    (fun w => decode Config.standard .host w = .illegal .reservedOp) = true := by decide
/-- A7, S6, T6, G5, B5, E5, M5: each kind on a port that is not its own. -/
theorem test_decode_wrong_port : ∀ k ∈ [(Port.host, (0x1064 : Word)), (.adc, 0x8000), (.host, 0x3000), (.tmr, 0xB001),
    (.host, 0x2041), (.rx, 0x9000), (.adc, 0xA000)], decode Config.standard k.1 k.2 = .illegal .wrongPort := by decide
/-- R90's examples, the encoder's side. -/
theorem test_encode_examples : encode (.adcDone 100) = 0x1064 ∧ encode (.rxByte 0x41) = 0x2041 ∧
    encode (.rdSum .ch1) = 0x8001 := by decide
theorem test_decodeTableWord : decodeTableWord 16 0xB001 = some (.cfgWr true) ∧ decodeTableWord 16 0x4000 = none := by
  decide

/-! ### One command each, from the vectors -/

/-- The response and the block after a command, where it has a next state. -/
def outcome (i : Instr) (s : State) : Option (Answer × Block) :=
  match exec i s with
  | .next t => t.answers.head?.map fun a => (a, t.block)
  | .fault _ => none
  | .refused _ => none

/-- The machine after reset but for its block. -/
def withBlock (b : Block) : State := { State.reset with block := b }

/-- A window of eight equal samples. -/
def flat (x : Sample) (sum : Word) (cursor : BitVec 3) : Window :=
  { slots := Vector.replicate 8 x, sum := sum, cursor := cursor }

/-- A receive buffer of the standard capacity with these cursors and length. -/
def ringAt (rd wr len : Counter) : Ring := { Ring.reset Config.standard with rd := rd, wr := wr, len := len }

/-- A2: the largest sample into a full window of it, on channel 1. -/
def stateA2 : State :=
  withBlock { Block.reset Config.standard with sel := .ch1, win1 := flat 1023 8184 5, pub1 := 8184 }

/-- A3: the sum falls by the evicted sample. -/
theorem test_adcDone_A3 : outcome (.adcDone 0) stateA2 = some (⟨.adc, 0x1BF9, false⟩,
    { Block.reset Config.standard with
      sel := .ch0, pub1 := 7161,
      win1 := { slots := #v[1023, 1023, 1023, 1023, 1023, 0, 1023, 1023], sum := 7161, cursor := 6 } }) := by decide
/-- A4: the cursor wraps from 7 to 0. -/
theorem test_adcDone_A4 : outcome (.adcDone 20) (withBlock { Block.reset Config.standard with
      win0 := { slots := #v[1, 2, 3, 4, 5, 6, 7, 8], sum := 36, cursor := 7 }, pub0 := 36 }) =
    some (⟨.adc, 0x0030, false⟩, { Block.reset Config.standard with
      sel := .ch1, pub0 := 48, win0 := { slots := #v[1, 2, 3, 4, 5, 6, 7, 20], sum := 48, cursor := 0 } }) := by decide
/-- S3, and R112 on the other channel of A2. -/
theorem test_rdSum : (outcome (.rdSum .ch1) State.reset).map (·.1) = some ⟨.host, 0x0000, false⟩ ∧
    (outcome (.rdSum .ch1) stateA2).map (·.1) = some ⟨.host, 0x1FF8, false⟩ := by decide
/-- T2 and T3. -/
theorem test_tmrOvf_enabled : ∀ out : Bool,
    (outcome .tmrOvf (withBlock { Block.reset Config.standard with diagEn := true, diagOut := out })).map
      (·.2.diagOut) = some (!out) := by decide
/-- T4: disabled, the level is held. -/
theorem test_tmrOvf_disabled : outcome .tmrOvf (withBlock { Block.reset Config.standard with diagOut := true }) =
    some (⟨.tmr, 0, false⟩, { Block.reset Config.standard with diagOut := true }) := by decide
/-- G2: disabling holds the level. -/
theorem test_cfgWr_G2 :
    outcome (.cfgWr false) (withBlock { Block.reset Config.standard with diagEn := true, diagOut := true }) =
    some (⟨.host, 0, false⟩, { Block.reset Config.standard with diagOut := true }) := by decide
/-- B2: the write cursor wraps. -/
theorem test_rxByte_B2 : (outcome (.rxByte 0x7E) (withBlock { Block.reset Config.standard with rx := ringAt 10 49 39 })).map
    (fun r => (r.1, r.2.rx.buf[49]?, r.2.rx.wr, r.2.rx.len, r.2.rx.rd)) =
    some (⟨.rx, 0, false⟩, some 0x7E, 0, 40, 10) := by decide
/-- B4: full and wrapped, the newest byte is lost. -/
theorem test_rxByte_B4 : outcome (.rxByte 0x66) (withBlock { Block.reset Config.standard with rx := ringAt 20 19 49 }) =
    some (⟨.rx, 0, false⟩, { Block.reset Config.standard with rx := ringAt 20 19 49 }) := by decide
/-- E1 and E3. -/
theorem test_rxEmpty : (outcome .rxEmpty State.reset).map (·.1) = some ⟨.host, 0x0001, false⟩ ∧
    (outcome .rxEmpty (withBlock { Block.reset Config.standard with rx := ringAt 0 49 49 })).map (·.1) =
      some ⟨.host, 0x0000, false⟩ := by decide
/-- M4's first removal: the read cursor wraps. -/
theorem test_rxRemove_M4 : (outcome .rxRemove (withBlock { Block.reset Config.standard with
      rx := { ringAt 49 1 2 with buf := 0x32 :: List.replicate 48 0 ++ [0x31] } })).map
    (fun r => (r.1, r.2.rx.rd, r.2.rx.wr, r.2.rx.len, r.2.rx.last)) =
    some (⟨.host, 0x0031, false⟩, 0, 1, 1, 0x31) := by decide
/-- M3: an empty read returns the stale byte. -/
theorem test_rxRemove_M3 :
    outcome .rxRemove (withBlock { Block.reset Config.standard with rx := { ringAt 3 3 0 with last := 0x43 } }) =
    some (⟨.host, 0x0043, false⟩,
      { Block.reset Config.standard with rx := { ringAt 3 3 0 with last := 0x43 } }) := by decide

/-! ### The step -/

/-- A step's next state. -/
def after (s : State) : Option State :=
  match step s with
  | .next t => some t
  | .fault _ => none
  | .refused _ => none

/-- A1, through a word placed from outside. -/
theorem test_step_A1 : after (State.reset.withFetchWord 16 0x1064) = some { State.reset with
    block := { Block.reset Config.standard with
      sel := .ch1, pub0 := 100, win0 := { slots := #v[100, 0, 0, 0, 0, 0, 0, 0], sum := 100, cursor := 1 } }
    answers := [⟨.adc, 0x0064, false⟩] } := by decide
/-- A7: the wrong port, rejected. -/
theorem test_step_A7 : after { State.reset with hostIn := [0x1064], turns := [.serve .host] } =
    some { State.reset with answers := [⟨.host, 0x0000, true⟩] } := by decide
/-- R210, R212: a reset while a port presents a transaction. -/
theorem test_step_reset : after { stateA2 with adcIn := [0x1064], turns := [.reset] } =
    some { State.reset with adcIn := [0x1064] } := by decide
/-- B6, with `C = 2`, the byte that does not fit. -/
theorem test_capacity_two : Ring.insert { Config.standard with rxCap := 2 }
    ⟨[0xAA, 0], 0, 1, 1, 0⟩ 0xBB = ⟨[0xAA, 0], 0, 1, 1, 0⟩ := by decide
/-- R11: 6 bits for 50 slots, so that a length of 63, which no run reaches, is followed by 0. -/
theorem test_counter_width : Config.cursorBits Config.standard = 6 ∧
    (Ring.insert Config.standard (ringAt 0 0 63) 0x55).len = 0 := by decide
/-- R9, R33: the selected input is the parameter's. -/
theorem test_analogInput : State.analogInput (State.resetWith { Config.standard with chPin0 := 3, chPin1 := 5 }) = 3 ∧
    State.analogInput { State.resetWith { Config.standard with chPin0 := 3, chPin1 := 5 } with
      block := { Block.reset Config.standard with sel := .ch1 } } = 5 := by decide
/-- R91 and R90: an operand out of range is no word; `.word` takes any. -/
theorem test_assemble : assemble Config.standard (.adcDone 1024) = none ∧
    assemble Config.standard (.adcDone 100) = some 0x1064 ∧ assemble Config.standard (.word 0x1400) = some 0x1400 := by
  decide

/-! ### Witnesses: the hypotheses of the obligations can be met -/

/-- A state in which port `p` presents `w` and is served next. -/
def offering (p : Port) (w : Word) : State := (State.reset.setQueue p [w]).withTurns [.serve p]

theorem offering_offers (p : Port) (w : Word) : (offering p w).Offers p w [] [] := by cases p <;> exact ⟨rfl, rfl⟩

theorem witness_DecodeOfEncode : Instr.wf Config.standard (.adcDone 1023) = true ∧
    Instr.wf { Config.standard with adcBits := 12 } (.adcDone 4095) = true := by decide
theorem witness_DecodedWord : decode Config.standard .adc 0x13FF = .legal (.adcDone 1023) := by decide
theorem witness_MatchAndMask : ∀ n ∈ [1, 8, 10, 12], Config.legal { Config.standard with adcBits := n } = true := by decide
theorem witness_ReservedOpcodes (w : Word) (hw : w ∈ [0x0FFF, 0x4000, 0x7FFF, 0xC000, 0xFFFF]) :
    w.toNat / 2 ^ 12 ∈ [0x0, 0x4, 0x5, 0x6, 0x7, 0xC, 0xD, 0xE, 0xF] ∧ (offering .rx w).Offers .rx w [] [] := by
  refine ⟨?_, offering_offers .rx w⟩
  simp only [List.mem_cons, List.not_mem_nil, or_false] at hw
  rcases hw with rfl | rfl | rfl | rfl | rfl <;> decide
theorem witness_ReservedBits_sample : (offering .adc 0x1400).Offers .adc 0x1400 [] [] ∧
    (0x1400 : Word).toNat / 2 ^ 12 = 0x1 ∧ (0x1400 : Word).toNat % 2 ^ 12 ≥ 2 ^ (offering .adc 0x1400).cfg.adcBits :=
  ⟨offering_offers .adc 0x1400, by decide⟩
theorem witness_ReservedBits_byte : (offering .rx 0x2100).Offers .rx 0x2100 [] [] ∧
    (0x2100 : Word).toNat / 2 ^ 12 = 0x2 ∧ (0x2100 : Word).toNat % 2 ^ 12 ≥ 2 ^ 8 :=
  ⟨offering_offers .rx 0x2100, by decide⟩
theorem witness_ReservedBits_none : (offering .host 0xA001).Offers .host 0xA001 [] [] ∧
    (0xA001 : Word).toNat / 2 ^ 12 ∈ [0x3, 0x9, 0xA] ∧ (0xA001 : Word).toNat % 2 ^ 12 ≠ 0 :=
  ⟨offering_offers .host 0xA001, by decide⟩
theorem witness_ReservedBits_bit : (offering .host 0xB002).Offers .host 0xB002 [] [] ∧
    (0xB002 : Word).toNat / 2 ^ 12 ∈ [0x8, 0xB] ∧ (0xB002 : Word).toNat % 2 ^ 12 ≥ 2 :=
  ⟨offering_offers .host 0xB002, by decide⟩
theorem witness_WrongPort : (offering .host (encode (.adcDone 100))).Offers .host (encode (.adcDone 100)) [] [] ∧
    Instr.wf Config.standard (.adcDone 100) = true ∧ Port.host ≠ Instr.port (.adcDone 100) :=
  ⟨offering_offers _ _, by decide⟩
theorem witness_Rejection : (offering .adc 0x1400).Offers .adc 0x1400 [] [] ∧
    decode (offering .adc 0x1400).cfg .adc 0x1400 = .illegal .reservedOperand := ⟨offering_offers _ _, by decide⟩
theorem witness_StepRuns : (offering .adc 0x1064).Offers .adc 0x1064 [] [] ∧
    decode (offering .adc 0x1064).cfg .adc 0x1064 = .legal (.adcDone 100) := ⟨offering_offers _ _, by decide⟩
theorem witness_NothingPresented : State.reset.turns = [] ∧
    (State.reset.withTurns [.serve .rx]).turns = [.serve .rx] ∧
    (State.reset.withTurns [.serve .rx]).queue .rx = [] := by decide
theorem witness_Reset : (stateA2.withTurns [.reset]).turns = [.reset] := by decide
theorem witness_ResetMeets :
    Config.legal { adcBits := 1, rxCap := 2, initChannel := .ch1, chPin0 := 1, chPin1 := 0 } = true := by decide
theorem stateA2_inv : stateA2.Inv := by decide
theorem witness_EveryStep : (offering .adc 0x13FF).Inv ∧ ∃ t, step (offering .adc 0x13FF) = .next t :=
  ⟨by decide, _, rfl⟩
theorem witness_EveryRun : (offering .adc 0x13FF).cfg.legal = true ∧
    (offering .adc 0x13FF).block = Block.reset (offering .adc 0x13FF).cfg ∧
    ∃ t, Host.Core.run Sys2Proof.core 2 (offering .adc 0x13FF) = .next t := ⟨by decide, by decide, _, rfl⟩
theorem witness_NoParameterChange : ∃ t, Host.Core.run Sys2Proof.core 1 (offering .adc 0x13FF) = .next t := ⟨_, rfl⟩
/-- `C = 256` is where the counters need the most bits; a length beyond `C - 1` that 6 bits can hold is not full. -/
theorem witness_RingCounters : Config.legal { Config.standard with rxCap := 256 } = true ∧
    Config.standard.legal = true ∧ (ringAt 0 0 63).lenValue Config.standard ≠ Config.standard.rxCap - 1 ∧
    (ringAt 0 0 63).lenValue Config.standard ≠ 0 ∧
    ∃ t, exec (.rxByte 1) (withBlock { Block.reset Config.standard with rx := ringAt 0 0 63 }) = .next t :=
  ⟨by decide, by decide, by decide, by decide, _, rfl⟩
/-- Two buffers of 50 slots whose registers differ above their 6 bits only. -/
theorem witness_NoBitAbove : (ringAt 3 3 0).SameContents Config.standard (ringAt 67 131 192) := by decide
theorem witness_ServiceOrder : ∀ p, [Port.adc, .host, .adc].count p ≤
    (State.queue { State.reset with adcIn := [0x1005, 0x1006], hostIn := [0x8000] } p).length := by
  intro p; cases p <;> decide
theorem witness_AdcDoneFrame : ∃ t, exec (.adcDone 5) stateA2 = .next t := ⟨_, rfl⟩
theorem witness_AdcDoneSum : stateA2.Inv ∧ Instr.wf stateA2.cfg (.adcDone 1023) = true := by decide
/-- W2: two conversions of a block with `INIT_CHANNEL = 1`. -/
theorem witness_Alternate :
    let s : State := { State.resetWith { Config.standard with initChannel := .ch1 } with
      adcIn := [0x1005, 0x1006], turns := [.serve .adc, .serve .adc] }
    s.block = Block.reset s.cfg ∧ Turn.reset ∉ s.turns.take 2 ∧ ∃ t, Host.Core.run Sys2Proof.core 2 s = .next t ∧
      conversions t.answers = 2 := ⟨by decide, by decide, _, rfl, by decide⟩
theorem witness_LastEight : State.reset.Inv ∧
    (∀ i ∈ List.replicate 16 (Instr.adcDone 1023), i.wf State.reset.cfg = true) ∧
    (∃ t, execAll (List.replicate 16 (.adcDone 1023)) State.reset = .next t) ∧
    8 ≤ (credited .ch1 State.reset.block.sel (List.replicate 16 (.adcDone 1023))).length :=
  ⟨by decide, by decide, ⟨_, rfl⟩, by decide⟩
theorem witness_WarmUp : State.reset.cfg.legal = true ∧ State.reset.block = Block.reset State.reset.cfg ∧
    (∀ i ∈ List.replicate 14 (Instr.adcDone 800), i.wf State.reset.cfg = true) ∧
    (∃ t, execAll (List.replicate 14 (.adcDone 800)) State.reset = .next t) ∧
    (credited .ch0 State.reset.block.sel (List.replicate 14 (.adcDone 800))).length = 7 :=
  ⟨by decide, by decide, by decide, ⟨_, rfl⟩, by decide⟩
theorem witness_SumReads : (∀ i ∈ [Instr.rxByte 1, .tmrOvf], ∀ x, i ≠ .adcDone x) ∧
    ∃ a b c, exec (.rdSum .ch1) stateA2 = .next a ∧ execAll [.rxByte 1, .tmrOvf] a = .next b ∧
      exec (.rdSum .ch1) b = .next c := ⟨by simp, _, _, _, rfl, rfl, rfl⟩
/-- Not full with the write cursor at the last slot, full, and empty: each meets the invariants. -/
theorem witness_RxByte : (withBlock { Block.reset Config.standard with rx := ringAt 10 49 39 }).Inv ∧
    (withBlock { Block.reset Config.standard with rx := ringAt 20 19 49 }).Inv ∧
    (ringAt 20 19 49).lenValue Config.standard = Config.standard.rxCap - 1 := by decide
theorem witness_RxRemove : (withBlock { Block.reset Config.standard with rx := ringAt 49 1 2 }).Inv ∧
    (withBlock { Block.reset Config.standard with rx := ringAt 3 3 0 }).Inv ∧
    (ringAt 3 3 0).lenValue Config.standard = 0 := by decide
theorem witness_FirstBytes : State.reset.Inv ∧ State.reset.block.rx.lenValue State.reset.cfg = 0 := by decide
theorem witness_EmptyReads :
    let s := withBlock { Block.reset Config.standard with rx := { ringAt 3 3 0 with last := 0x43 } }
    s.block.rx.lenValue s.cfg = 0 := by decide
theorem witness_Average : stateA2.Inv := stateA2_inv
theorem witness_AssembledLines : Config.standard.legal = true := by decide
/-- Full, neither, and empty: each meets the invariants and each command completes from it. -/
theorem witness_Queue (r : Ring) (hr : r ∈ [ringAt 20 19 49, ringAt 49 1 2, ringAt 3 3 0]) (i : Instr)
    (hi : i ∈ [Instr.rxByte 0x55, .rxEmpty, .rxRemove]) :
    (withBlock { Block.reset Config.standard with rx := r }).Inv ∧
    ∃ t, exec i (withBlock { Block.reset Config.standard with rx := r }) = .next t := by
  simp only [List.mem_cons, List.not_mem_nil, or_false] at hr hi
  refine ⟨by rcases hr with rfl | rfl | rfl <;> decide, ?_⟩
  rcases hi with rfl | rfl | rfl <;> exact ⟨_, rfl⟩
theorem witness_BytesLeave : ∃ t, execAll [.rxByte 1, .rxByte 2, .rxRemove] State.reset = .next t ∧ State.reset.Inv ∧
    (∀ e ∈ history [.rxByte 1, .rxByte 2, .rxRemove] State.reset, e.instr = .rxRemove →
      e.before.block.rx.lenValue e.before.cfg ≠ 0) :=
  ⟨_, rfl, by decide, by decide⟩
theorem witness_CheckedRead :
    let s : State := { withBlock { Block.reset Config.standard with rx := ringAt 49 1 2 } with
      rxIn := [0x205A], turns := [.serve .rx] }
    s.Inv ∧ ∃ a b t, exec Pseudo.rxGet.first s = .next a ∧ s.Answers a .host 0x0000 false ∧
      (∀ u ∈ a.turns.take 1, u ≠ .reset ∧ u ≠ .serve .host) ∧ Host.Core.run Sys2Proof.core 1 a = .next b ∧
      exec .rxRemove b = .next t := ⟨by decide, _, _, _, rfl, by decide, by decide, rfl, rfl⟩
theorem witness_Ownership : (offering .rx 0x2041).Inv ∧
    (offering .rx 0x2041).turns = [.serve .rx] ∧ (offering .host 0xA000).turns = [.serve .host] ∧
    (∃ t, step (offering .rx 0x2041) = .next t) ∧ ∃ t, step (offering .host 0xA000) = .next t :=
  ⟨by decide, by decide, by decide, ⟨_, rfl⟩, _, rfl⟩
theorem witness_PublishedSums : ∀ ch, Instr.adcDone 5 ≠ .rdSum ch := by intro ch; simp
theorem witness_Commute : Instr.port (.adcDone 1) ≠ Instr.port .rxRemove ∧ orderMatters (.adcDone 1) .rxRemove = false ∧
    (offering .host 0x1400).Offers .host 0x1400 [] [] ∧
    decodeWord (offering .host 0x1400).cfg 0x1400 = .illegal .reservedOperand ∧
    Port.host ≠ portOfOp (opField 0x1400) := by decide
theorem witness_Outputs : (offering .adc 0x1064).cfg.legal = true ∧
    (offering .tmr 0x3000).Offers .tmr 0x3000 [] [] ∧
    (∃ t, step (offering .tmr 0x3000) = .next t) ∧ (offering .adc 0x1064).Offers .adc 0x1064 [] [] ∧
    ∃ t, step (offering .adc 0x1064) = .next t :=
  ⟨by decide, offering_offers _ _, ⟨_, rfl⟩, offering_offers _ _, _, rfl⟩

end Sys2Proof.Tests
end

/-! ## Proofs: what the decoder accepts is admitted -/

namespace Sys2Proof

variable {c : Config} {w : Word} {i j : Instr} {opnd : BitVec 12}

/-! What each format accepts (30_encoding.md R73 to R77). -/

/-- A format checks its operand, and answers its command when the check passes. -/
theorem checked_eq_legal_iff {ok : Prop} [Decidable ok] {why : Illegal} :
    (if ok then Decoded.legal i else .illegal why) = .legal j ↔ ok ∧ i = j := by
  by_cases h : ok <;> simp [h]

@[simp] theorem formatN_eq_legal_iff : formatN i opnd = .legal j ↔ opnd = 0#12 ∧ i = j := by
  rw [formatN, checked_eq_legal_iff]

@[simp] theorem formatB_eq_legal_iff {f : Byte → Instr} :
    formatB f opnd = .legal j ↔ opnd.extractLsb' 8 4 = 0#4 ∧ f (opnd.extractLsb' 0 8) = j := by
  rw [formatB, checked_eq_legal_iff]

@[simp] theorem formatS_eq_legal_iff {f : Sample → Instr} :
    formatS c f opnd = .legal j ↔ opnd.toNat < 2 ^ c.adcBits ∧ f opnd = j := by
  rw [formatS, checked_eq_legal_iff, shiftRight_eq_zero_iff]

@[simp] theorem formatBit_eq_legal_iff {f : Bool → Instr} :
    formatBit f opnd = .legal j ↔ opnd.extractLsb' 1 11 = 0#11 ∧ f (opnd.getLsbD 0) = j := by
  rw [formatBit, checked_eq_legal_iff]

/-- Only format S makes an ADC_DONE, and it has checked the sample (R75). -/
theorem decodeWord_adcDone_lt {x : Sample} (h : decodeWord c w = .legal (.adcDone x)) :
    x.toNat < 2 ^ c.adcBits := by
  simp only [decodeWord] at h
  split at h
  · obtain ⟨hlt, hx⟩ := formatS_eq_legal_iff.1 h
    exact Instr.adcDone.inj hx ▸ hlt
  all_goals simp at h

/-- What the decoder accepts is a command the block admits. -/
theorem decode_wf {p : Port} (h : decode c p w = .legal i) : i.wf c = true := by
  obtain ⟨hw, -⟩ := (decode_legal_iff c p w i).1 h
  cases i with
  | adcDone x => exact decide_eq_true (decodeWord_adcDone_lt hw)
  | rxByte _ | tmrOvf | rdSum _ | rxEmpty | rxRemove | cfgWr _ => rfl

end Sys2Proof

/-! ## Proofs: every step and every run keep the parameters and the invariants -/

namespace Sys2Proof.Machine

/-- No command writes a parameter. -/
theorem exec_cfg {i : Instr} {s t : State} (h : exec i s = .next t) : t.cfg = s.cfg := by
  obtain ⟨b, d, rfl⟩ := exec_cases h
  rfl

/-- No step writes a parameter (R11, R18). -/
theorem step_cfg {s t : State} (h : step s = .next t) : t.cfg = s.cfg := by
  rcases step_cases h with ⟨-, rfl⟩ | ⟨p, ts, -, -, rfl⟩ | ⟨ts, -, rfl⟩ | ⟨p, w, ws, ts, why, -, -, rfl⟩ |
    ⟨p, w, ws, ts, i, -, -, he⟩
  · rfl
  · rfl
  · rfl
  · simp
  · simpa using exec_cfg he

/-- A block just reset meets the invariants, whatever its boundary holds. -/
theorem inv_of_block_reset {s : State} (hc : s.cfg.legal = true) (hb : s.block = Block.reset s.cfg) : s.Inv :=
  (inv_congr (s := State.resetWith s.cfg) (t := s) rfl hb).2 (resetWith_inv hc)

/-- The invariants of R34 to R36 are kept by every step: a reset establishes them, a decoded command is admitted and
keeps them, and nothing else touches the block. -/
theorem step_keeps_inv {s t : State} (hs : s.Inv) (h : step s = .next t) : t.Inv := by
  rcases step_cases h with ⟨-, rfl⟩ | ⟨p, ts, -, -, rfl⟩ | ⟨ts, -, rfl⟩ | ⟨p, w, ws, ts, why, -, -, rfl⟩ |
    ⟨p, w, ws, ts, i, -, hd, he⟩
  · exact hs
  · exact hs
  · exact inv_of_block_reset hs.1 rfl
  · exact (inv_congr (by simp) (by simp)).2 hs
  · have hu : ((s.setQueue p ws).withTurns ts).Inv := (inv_congr (by simp) (by simp)).2 hs
    exact exec_keeps_inv hu (by simpa using decode_wf hd) he

theorem run_cfg {n : Nat} {s t : State} (h : Host.Core.run Sys2Proof.core n s = .next t) : t.cfg = s.cfg :=
  run_induction (R := fun s t => t.cfg = s.cfg) (fun _ => rfl)
    (fun _ _ _ hstep ih => ih.trans (step_cfg hstep)) n s t h

theorem run_keeps_inv {n : Nat} {s t : State} (hs : s.Inv) (h : Host.Core.run Sys2Proof.core n s = .next t) :
    t.Inv :=
  run_induction (R := fun s t => s.Inv → t.Inv) (fun _ => id)
    (fun _ _ _ hstep ih hs => ih (step_keeps_inv hs hstep)) n s t h hs

/-! ## Proofs: what the invariants say of the sums and of the unread bytes -/

/-- Where the invariants hold, a running sum is at most 8 times the largest sample (R34). -/
theorem inv_sum_le {s : State} (h : s.Inv) (ch : Channel) :
    (s.block.window ch).sum.toNat ≤ 8 * (2 ^ s.cfg.adcBits - 1) := by
  obtain ⟨-, hch, -⟩ := (inv_iff s).1 h
  obtain ⟨hsum, -⟩ := hch ch
  exact hsum ▸ inv_total_le h ch

/-- Where the invariants hold, exchanging any slot's sample for another neither borrows nor carries out of the 16 bits
of the sum (R34): the evicted sample is part of the sum, and what remains leaves room for 12 bits. -/
theorem inv_slide_no_wrap {s : State} (h : s.Inv) (ch : Channel) (i : BitVec 3) (x : Sample) :
    ((s.block.window ch).read i).toNat ≤ (s.block.window ch).sum.toNat ∧
      (s.block.window ch).sum.toNat - ((s.block.window ch).read i).toNat + x.toNat < 2 ^ 16 := by
  obtain ⟨hlegal, hch, -⟩ := (inv_iff s).1 h
  obtain ⟨hsum, -⟩ := hch ch
  have hmax := (inv_sum_le h ch).trans (max_total_le hlegal)
  have hx := x.isLt
  exact ⟨hsum ▸ read_le_total _ i, by omega⟩

/-- The unread bytes are the slots that R36 names: under the ring's invariant each of those slots exists. -/
theorem unread_getElem?_eq_buf {c : Config} {r : Ring} (h : r.Inv c) {k : Nat} (hk : k < r.lenValue c) :
    (r.unread c)[k]? = r.buf[(r.rdValue c + k) % c.rxCap]? := by
  obtain ⟨hbuf, -, hrd, -⟩ := h
  have hslot : (r.rdValue c + k) % c.rxCap < r.buf.length := hbuf ▸ Nat.mod_lt _ (by omega)
  rw [unread_getElem? hk, getElem?_eq_some_read hslot]

/-- Settles O16: the invariants hold of the reset block and every run keeps them, and they give each clause. -/
theorem everyRunFromResetKeepsSumsAndCursors : Obligations.EveryRunFromResetKeepsSumsAndCursors := by
  intro s t n hlegal hreset hrun
  have ht : t.Inv := run_keeps_inv (inv_of_block_reset hlegal hreset) hrun
  rw [← run_cfg hrun]
  obtain ⟨hlegal', hch, hring⟩ := (inv_iff t).1 ht
  have ⟨_, hlen, hrd, hwr, hcursors⟩ := hring
  refine ⟨fun ch => ?_, hlen, hrd, hwr, hcursors, unread_length, fun k hk => unread_getElem?_eq_buf hring hk⟩
  obtain ⟨hsum, hpub, -⟩ := hch ch
  exact ⟨hsum, inv_sum_le ht ch, max_total_le hlegal', fun i x _ => inv_slide_no_wrap ht ch i x, hpub⟩

end Sys2Proof.Machine

/-! ## Proofs: the decoder by `OP` and operand bound, and what the block rejects (30_encoding.md R81 to R85) -/

namespace Sys2Proof

variable {c : Config} {p : Port} {w : Word} {i j : Instr} {op : BitVec 4} {opnd : BitVec 12} {n : Nat}

/-! ### Each format bounds its operand -/

/-- The bits from `n` up are zero exactly when the operand is below `2^n`. -/
theorem extractLsb'_eq_zero_iff {k : Nat} (h : n + k = 12) :
    opnd.extractLsb' n k = 0#k ↔ opnd.toNat < 2 ^ n := by
  have hlt : opnd.toNat / 2 ^ n < 2 ^ k := Nat.div_lt_of_lt_mul (by rw [← pow_add, h]; exact opnd.isLt)
  rw [← BitVec.toNat_inj, BitVec.extractLsb'_toNat, Nat.shiftRight_eq_div_pow, Nat.mod_eq_of_lt hlt]
  simp [Nat.div_eq_zero_iff]

theorem formatN_eq : formatN i opnd =
    if opnd.toNat < 2 ^ 0 then .legal i else .illegal .reservedOperand := by
  have : opnd = 0#12 ↔ opnd.toNat < 2 ^ 0 := by rw [← BitVec.toNat_inj]; simp
  simp only [formatN, this]

theorem formatB_eq {f : Byte → Instr} : formatB f opnd =
    if opnd.toNat < 2 ^ 8 then .legal (f (opnd.extractLsb' 0 8)) else .illegal .reservedOperand := by
  simp only [formatB, extractLsb'_eq_zero_iff (n := 8) (k := 4) rfl]

theorem formatS_eq {f : Sample → Instr} : formatS c f opnd =
    if opnd.toNat < 2 ^ c.adcBits then .legal (f opnd) else .illegal .reservedOperand := by
  simp only [formatS, shiftRight_eq_zero_iff]

theorem formatBit_eq {f : Bool → Instr} : formatBit f opnd =
    if opnd.toNat < 2 ^ 1 then .legal (f (opnd.getLsbD 0)) else .illegal .reservedOperand := by
  simp only [formatBit, extractLsb'_eq_zero_iff (n := 1) (k := 11) rfl]

/-! ### The decoder, said once for all formats -/

/-- The number of low operand bits that the format of an assigned `OP` leaves free; a reserved `OP` has no format (R72
to R77). -/
def operandBits (c : Config) : BitVec 4 → Option Nat
  | 0x1#4 => some c.adcBits
  | 0x2#4 => some 8
  | 0x3#4 => some 0
  | 0x8#4 => some 1
  | 0x9#4 => some 0
  | 0xA#4 => some 0
  | 0xB#4 => some 1
  | _ => none

/-- A reserved `OP` is all that is looked at (R81). -/
theorem decodeWord_of_operandBits_none (h : operandBits c (opField w) = none) :
    decodeWord c w = .illegal .reservedOp := by
  simp only [operandBits] at h
  split at h
  case h_8 => simp only [decodeWord]
  all_goals exact absurd h (Option.some_ne_none _)

/-- An assigned `OP` spells its kind when the operand fits the format's free bits, and is illegal when not (R82). -/
theorem decodeWord_of_operandBits_some (h : operandBits c (opField w) = some n) :
    ∃ i, opOf i = opField w ∧
      decodeWord c w = if (opndField w).toNat < 2 ^ n then .legal i else .illegal .reservedOperand := by
  simp only [operandBits] at h
  split at h <;> rename_i hop
  case h_8 => exact absurd h.symm (Option.some_ne_none _)
  all_goals
    obtain rfl := Option.some.inj h
    simp only [decodeWord, hop]
  · exact ⟨.adcDone _, rfl, formatS_eq⟩
  · exact ⟨.rxByte _, rfl, formatB_eq⟩
  · exact ⟨.tmrOvf, rfl, formatN_eq⟩
  · exact ⟨.rdSum _, rfl, formatBit_eq⟩
  · exact ⟨.rxEmpty, rfl, formatN_eq⟩
  · exact ⟨.rxRemove, rfl, formatN_eq⟩
  · exact ⟨.cfgWr _, rfl, formatBit_eq⟩

/-- A word that spells a command has the command's `OP` and an operand that fits the format's free bits. -/
theorem fields_of_decodeWord_legal (h : decodeWord c w = .legal i) :
    opField w = opOf i ∧ ∃ n, operandBits c (opOf i) = some n ∧ (opndField w).toNat < 2 ^ n := by
  cases hb : operandBits c (opField w) with
  | none => simp [decodeWord_of_operandBits_none hb] at h
  | some n =>
    obtain ⟨j, hj, hd⟩ := decodeWord_of_operandBits_some hb
    obtain ⟨hlt, rfl⟩ := checked_eq_legal_iff.1 (hd.symm.trans h)
    exact ⟨hj.symm, n, hj ▸ hb, hlt⟩

theorem decode_of_decodeWord_illegal {why : Illegal} (h : decodeWord c w = .illegal why) :
    decode c p w = .illegal why := by
  simp only [decode, h]

theorem decode_of_wrong_port (h : decodeWord c w = .legal i) (hp : p ≠ i.port) :
    decode c p w = .illegal .wrongPort := by
  simp only [decode, h, if_neg hp]

/-! ### Reserved and assigned `OP` values, as numbers -/

theorem opField_eq_iff : opField w = op ↔ w.toNat / 2 ^ 12 = op.toNat := by
  rw [← BitVec.toNat_inj, opField_toNat]

/-- The nine reserved values (R81). -/
theorem operandBits_of_reserved (h : op.toNat ∈ [0x0, 0x4, 0x5, 0x6, 0x7, 0xC, 0xD, 0xE, 0xF]) :
    operandBits c op = none := by
  simp only [operandBits]
  split
  case h_8 => rfl
  all_goals exact absurd h (by decide)

theorem decode_of_reserved_op (h : w.toNat / 2 ^ 12 ∈ [0x0, 0x4, 0x5, 0x6, 0x7, 0xC, 0xD, 0xE, 0xF]) :
    decode c p w = .illegal .reservedOp := by
  rw [← opField_toNat] at h
  exact decode_of_decodeWord_illegal (decodeWord_of_operandBits_none (operandBits_of_reserved h))

/-- An operand that does not fit the free bits of the format is illegal on every port (R82). -/
theorem decode_of_operand_too_wide (hop : w.toNat / 2 ^ 12 = op.toNat) (hn : operandBits c op = some n)
    (hw : 2 ^ n ≤ w.toNat % 2 ^ 12) : decode c p w = .illegal .reservedOperand := by
  obtain rfl := opField_eq_iff.2 hop
  obtain ⟨i, -, hd⟩ := decodeWord_of_operandBits_some hn
  rw [← opndField_toNat] at hw
  exact decode_of_decodeWord_illegal (hd.trans (if_neg (Nat.not_lt.2 hw)))

/-! ### The encoder's words decode -/

theorem decodeWord_encode (h : i.wf c = true) : decodeWord c (encode i) = .legal i := by
  simp only [decodeWord, opField_encode, opndField_encode]
  cases i with
  | adcDone x => exact formatS_eq_legal_iff.2 ⟨of_decide_eq_true h, rfl⟩
  | rxByte b =>
    have hbyte : (b.setWidth 12).extractLsb' 0 8 = b := BitVec.eq_of_toNat_eq (by simp; omega)
    exact formatB_eq_legal_iff.2 ⟨(extractLsb'_eq_zero_iff rfl).2 (by simp [opndOf]; omega), congrArg _ hbyte⟩
  | tmrOvf | rxEmpty | rxRemove => exact formatN_eq_legal_iff.2 ⟨rfl, rfl⟩
  | rdSum ch => cases ch <;> exact formatBit_eq_legal_iff.2 ⟨rfl, rfl⟩
  | cfgWr e => cases e <;> exact formatBit_eq_legal_iff.2 ⟨rfl, rfl⟩

/-! ### Match and mask (R85) -/

/-- The mask of a format with `n` free operand bits: all of `OP`, and the operand bits that must be zero. -/
def formatMask (n : Nat) : Word := BitVec.allOnes 4 ++ BitVec.allOnes 12 <<< n

theorem eq_append_iff : w = op ++ opnd ↔ opField w = op ∧ opndField w = opnd := by
  constructor
  · rintro rfl
    exact ⟨BitVec.extractLsb'_append_eq_left, BitVec.extractLsb'_append_eq_right⟩
  · rintro ⟨rfl, rfl⟩
    exact (opField_append_opndField w).symm

theorem opField_and_formatMask : opField (w &&& formatMask n) = opField w := by
  have hmask : opField (formatMask n) = BitVec.allOnes 4 := (eq_append_iff.1 rfl).1
  calc opField (w &&& formatMask n) = opField w &&& opField (formatMask n) := BitVec.extractLsb'_and
    _ = opField w := by rw [hmask, BitVec.and_allOnes]

theorem opndField_and_formatMask : opndField (w &&& formatMask n) = opndField w >>> n <<< n := by
  have hmask : opndField (formatMask n) = BitVec.allOnes 12 <<< n := (eq_append_iff.1 rfl).2
  calc opndField (w &&& formatMask n) = opndField w &&& opndField (formatMask n) := BitVec.extractLsb'_and
    _ = opndField w >>> n <<< n := by rw [hmask, BitVec.shiftLeft_ushiftRight]

/-- Clearing the low `n` bits leaves nothing exactly when the operand is below `2^n`. -/
theorem shiftRight_shiftLeft_eq_zero_iff : opnd >>> n <<< n = 0#12 ↔ opnd.toNat < 2 ^ n := by
  have hle : opnd.toNat / 2 ^ n * 2 ^ n < 2 ^ 12 := (Nat.div_mul_le_self _ _).trans_lt opnd.isLt
  rw [← BitVec.toNat_inj, BitVec.toNat_shiftLeft, BitVec.toNat_ushiftRight, Nat.shiftRight_eq_div_pow,
    Nat.shiftLeft_eq, Nat.mod_eq_of_lt hle]
  simp [Nat.div_eq_zero_iff]

/-- A format's match and mask select the words of its `OP` whose operand fits its free bits. -/
theorem and_formatMask_eq_iff :
    w &&& formatMask n = op ++ 0#12 ↔ opField w = op ∧ (opndField w).toNat < 2 ^ n := by
  rw [eq_append_iff, opField_and_formatMask, opndField_and_formatMask, shiftRight_shiftLeft_eq_zero_iff]

/-- A kind's port is the one its `OP` has in R72's table. -/
theorem portOfOp_opOf : portOfOp (opOf i) = i.port := by cases i <;> rfl

/-- The words that decode to the kind of an `OP` are those its port, match and mask select. -/
theorem exists_decode_opOf_iff (h : operandBits c op = some n) :
    (∃ i, opOf i = op ∧ decode c p w = .legal i) ↔ p = portOfOp op ∧ w &&& formatMask n = op ++ 0#12 := by
  rw [and_formatMask_eq_iff]
  constructor
  · rintro ⟨i, rfl, hd⟩
    obtain ⟨hw, rfl⟩ := (decode_legal_iff c p w i).1 hd
    obtain ⟨hop, m, hm, hlt⟩ := fields_of_decodeWord_legal hw
    obtain rfl := Option.some.inj (hm.symm.trans h)
    exact ⟨portOfOp_opOf.symm, hop, hlt⟩
  · rintro ⟨rfl, rfl, hlt⟩
    obtain ⟨i, hi, hd⟩ := decodeWord_of_operandBits_some h
    rw [if_pos hlt] at hd
    exact ⟨i, hi, (decode_legal_iff ..).2 ⟨hd, by rw [← hi, portOfOp_opOf]⟩⟩

/-- The same for a kind with an operand, whose constructor is `k`. -/
theorem exists_decode_kind_iff {α : Type} {k : α → Instr} {mask m : Word} (hk : ∀ i, opOf i = op ↔ ∃ a, i = k a)
    (hn : operandBits c op = some n) (hmask : mask = formatMask n) (hm : m = op ++ 0#12) :
    (∃ a, decode c p w = .legal (k a)) ↔ p = portOfOp op ∧ w &&& mask = m := by
  rw [hmask, hm, ← exists_decode_opOf_iff hn]
  simp [hk]

/-- The same for a kind without an operand. -/
theorem decode_kind_iff {mask m : Word} (hk : ∀ i, opOf i = op ↔ i = j)
    (hn : operandBits c op = some n) (hmask : mask = formatMask n) (hm : m = op ++ 0#12) :
    decode c p w = .legal j ↔ p = portOfOp op ∧ w &&& mask = m := by
  rw [hmask, hm, ← exists_decode_opOf_iff hn]
  simp [hk]

/-! `OP` names the kind. -/

theorem opOf_eq_adcDone_iff (i : Instr) : opOf i = 0x1#4 ↔ ∃ x, i = .adcDone x := by cases i <;> simp [opOf]
theorem opOf_eq_rxByte_iff (i : Instr) : opOf i = 0x2#4 ↔ ∃ b, i = .rxByte b := by cases i <;> simp [opOf]
theorem opOf_eq_tmrOvf_iff (i : Instr) : opOf i = 0x3#4 ↔ i = .tmrOvf := by cases i <;> simp [opOf]
theorem opOf_eq_rdSum_iff (i : Instr) : opOf i = 0x8#4 ↔ ∃ ch, i = .rdSum ch := by cases i <;> simp [opOf]
theorem opOf_eq_rxEmpty_iff (i : Instr) : opOf i = 0x9#4 ↔ i = .rxEmpty := by cases i <;> simp [opOf]
theorem opOf_eq_rxRemove_iff (i : Instr) : opOf i = 0xA#4 ↔ i = .rxRemove := by cases i <;> simp [opOf]
theorem opOf_eq_cfgWr_iff (i : Instr) : opOf i = 0xB#4 ↔ ∃ e, i = .cfgWr e := by cases i <;> simp [opOf]

end Sys2Proof

namespace Sys2Proof.Machine

/-- R85's mask is the mask of a format with `ADC_BITS` free bits. -/
theorem adcDoneMask_eq_formatMask {c : Config} (h : c.legal = true) : adcDoneMask c = formatMask c.adcBits := by
  have hb : c.adcBits < 13 := by simp [Config.legal] at h; omega
  have hall : ∀ k < 13, 0xF000 ||| (0x0FFF &&& ~~~(BitVec.ofNat 16 (2 ^ k - 1))) = formatMask k := by decide
  exact hall _ hb

theorem adcDoneMask_examples (c : Config) : (c.adcBits = 8 → adcDoneMask c = 0xFF00) ∧
    (c.adcBits = 10 → adcDoneMask c = 0xFC00) ∧ (c.adcBits = 12 → adcDoneMask c = 0xF000) := by
  refine ⟨fun h => ?_, fun h => ?_, fun h => ?_⟩ <;> simp only [adcDoneMask, h] <;> decide

/-- Settles O3: each kind's words are those whose `OP` is the kind's and whose operand fits the format's free bits, and
its match and mask test exactly that. -/
theorem matchAndMaskSelectEachKind : Obligations.MatchAndMaskSelectEachKind := by
  refine ⟨fun c p w hc => ⟨?_, ?_, ?_, ?_, ?_, ?_, ?_⟩, adcDoneMask_examples⟩
  · exact exists_decode_kind_iff opOf_eq_adcDone_iff rfl (adcDoneMask_eq_formatMask hc) rfl
  · exact exists_decode_kind_iff opOf_eq_rxByte_iff rfl (by decide) rfl
  · exact decode_kind_iff opOf_eq_tmrOvf_iff rfl (by decide) rfl
  · exact exists_decode_kind_iff opOf_eq_rdSum_iff rfl (by decide) rfl
  · exact decode_kind_iff opOf_eq_rxEmpty_iff rfl (by decide) rfl
  · exact decode_kind_iff opOf_eq_rxRemove_iff rfl (by decide) rfl
  · exact exists_decode_kind_iff opOf_eq_cfgWr_iff rfl (by decide) rfl

/-- An offered transaction that is illegal is rejected, and nothing else happens (60_exceptions.md R180). -/
theorem step_rejects {s : State} {p : Port} {w : Word} {ws : List Word} {ts : List Turn} {why : Illegal}
    (h : s.Offers p w ws ts) (hd : decode s.cfg p w = .illegal why) :
    ∃ t, step s = .next t ∧ s.Rejected t p ws ts :=
  ⟨_, step_illegal h hd, by simp, by simp, by simp [State.Answers], by simp,
    fun q hq => by simp [queue_setQueue_other _ _ hq], by simp⟩

/-- Settles O5: the decoder looks at nothing but the reserved `OP`. -/
theorem reservedOpcodesAreRejected : Obligations.ReservedOpcodesAreRejected := by
  refine ⟨fun c p w hw => decode_of_reserved_op hw, fun s p w ws ts hs hw => ?_⟩
  refine step_rejects hs (decode_of_reserved_op ?_)
  rcases hw with rfl | hw
  · decide
  · exact hw

/-- Settles O6: in each of the four cases the operand does not fit the bits that the format of the word's `OP` leaves
free. -/
theorem reservedOperandBitsAreRejected : Obligations.ReservedOperandBitsAreRejected := by
  intro s p w ws ts hs hw
  have hd : decode s.cfg p w = .illegal .reservedOperand := by
    rcases hw with ⟨hop, hw⟩ | ⟨hop, hw⟩ | ⟨hop, hw⟩ | ⟨hop, hw⟩
    · exact decode_of_operand_too_wide (op := 0x1) hop rfl hw
    · exact decode_of_operand_too_wide (op := 0x2) hop rfl hw
    · have hpos := Nat.one_le_iff_ne_zero.2 hw
      simp only [List.mem_cons, List.not_mem_nil, or_false] at hop
      rcases hop with hop | hop | hop
      · exact decode_of_operand_too_wide (op := 0x3) hop rfl hpos
      · exact decode_of_operand_too_wide (op := 0x9) hop rfl hpos
      · exact decode_of_operand_too_wide (op := 0xA) hop rfl hpos
    · simp only [List.mem_cons, List.not_mem_nil, or_false] at hop
      rcases hop with hop | hop
      · exact decode_of_operand_too_wide (op := 0x8) hop rfl hw
      · exact decode_of_operand_too_wide (op := 0xB) hop rfl hw
  exact ⟨⟨_, hd⟩, step_rejects hs hd⟩

/-- Settles O7: the word decodes to its command, and then the port is not that command's. -/
theorem wrongPortIsRejected : Obligations.WrongPortIsRejected := by
  intro s p i ws ts hs hwf hp
  have hd : decode s.cfg p (encode i) = .illegal .wrongPort := decode_of_wrong_port (decodeWord_encode hwf) hp
  exact ⟨hd, step_rejects hs hd⟩

end Sys2Proof.Machine

/-! ## Proofs: the sampler, ADC_DONE and RD_SUM (40_sampler.md) -/

namespace Sys2Proof.Machine

variable {s t u : State} {i : Instr} {is : List Instr} {ch : Channel} {x : Sample}

/-! ### Which commands write the sampler -/

theorem port_eq_adc_iff : i.port = .adc ↔ ∃ x, i = .adcDone x := by cases i <;> simp [Instr.port]

theorem window_of_sameSampler {a b : Block} (h : a.SameSampler b) (ch : Channel) : b.window ch = a.window ch := by
  obtain ⟨h0, h1, -⟩ := h
  cases ch
  · exact h0
  · exact h1

theorem published_of_sameSampler {a b : Block} (h : a.SameSampler b) (ch : Channel) :
    b.published ch = a.published ch := by
  obtain ⟨-, -, -, h0, h1⟩ := h
  cases ch
  · exact h0
  · exact h1

theorem sel_of_sameSampler {a b : Block} (h : a.SameSampler b) : b.sel = a.sel := by
  obtain ⟨-, -, hsel, -⟩ := h
  exact hsel

theorem sameSampler_refl (a : Block) : a.SameSampler a := ⟨rfl, rfl, rfl, rfl, rfl⟩

theorem sameSampler_trans {a b c : Block} (hab : a.SameSampler b) (hbc : b.SameSampler c) : a.SameSampler c := by
  obtain ⟨e1, e2, e3, e4, e5⟩ := hab
  obtain ⟨f1, f2, f3, f4, f5⟩ := hbc
  exact ⟨f1.trans e1, f2.trans e2, f3.trans e3, f4.trans e4, f5.trans e5⟩

theorem complete_sameBoundary (s : State) (p : Port) (b : Block) (d : Word) : s.SameBoundary (s.complete p b d) :=
  ⟨rfl, rfl, rfl, rfl, rfl, rfl⟩

theorem exec_adcDone_block (h : exec (.adcDone x) s = .next t) : t.block = adcDoneBlock x s.block := by
  cases h; rfl

/-- No command but ADC_DONE writes a register of the sampler (10_state.md R45). -/
theorem exec_sameSampler (hi : ∀ x, i ≠ .adcDone x) (h : exec i s = .next t) : s.block.SameSampler t.block := by
  rcases exec_block h with ⟨x, rfl, -⟩ | ⟨_, -, e⟩ | ⟨-, e⟩ | ⟨-, e⟩ | ⟨_, -, e⟩ | ⟨-, e⟩
  · exact absurd rfl (hi x)
  all_goals
    rw [e]
    exact sameSampler_refl s.block

theorem execAll_sameSampler (hi : ∀ i ∈ is, ∀ x, i ≠ .adcDone x) (h : execAll is s = .next t) :
    s.block.SameSampler t.block := by
  refine execAll_induction (R := fun s t is => (∀ i ∈ is, ∀ x, i ≠ .adcDone x) → s.block.SameSampler t.block)
    (fun s _ => sameSampler_refl s.block) (fun i is s u t hu ih hi => ?_) is s t h hi
  obtain ⟨hi, his⟩ := List.forall_mem_cons.1 hi
  exact sameSampler_trans (exec_sameSampler hi hu) (ih his)

/-! ### The effects and the frame of one command -/

/-- Settles O26: the answer is the published sum, which R35 makes the running sum. -/
theorem rdSumAnswersThePublishedSum : Obligations.RdSumAnswersThePublishedSum := by
  intro s ch
  refine ⟨_, exec_rdSum s ch, complete_answers .., fun hs => ?_, rfl, complete_sameBoundary ..⟩
  obtain ⟨-, hch, -⟩ := (inv_iff s).1 hs
  obtain ⟨-, hpub, -⟩ := hch ch
  simp [State.Answers, hpub]

/-- Settles O27: what RD_SUM answers is a register that only ADC_DONE writes. -/
theorem sumReadsRepeatUntilAConversion : Obligations.SumReadsRepeatUntilAConversion := by
  intro s a b c is ch hi ha hb hc
  cases ha
  cases hc
  have hpub : b.block.published ch = s.block.published ch :=
    published_of_sameSampler (execAll_sameSampler hi hb) ch
  exact ⟨rfl, rfl, s.block.published ch, rfl, by simp [State.Answers, hpub]⟩

/-- Settles O20: the window of the selected channel takes the sample by `Window.insert`. -/
theorem adcDoneUpdatesTheSelectedWindow : Obligations.AdcDoneUpdatesTheSelectedWindow := by
  intro s x _
  refine ⟨_, exec_adcDone s x, ?_⟩
  simp only [complete_block, adcDone_window_same, adcDone_published_same, adcDone_sel]
  exact ⟨insert_read_same _ x, insert_sum _ x, by simp [insert_cursor, BitVec.toNat_add], trivial, trivial,
    flipChannel_ne _, complete_answers ..⟩

/-- Settles O21: the insertion writes the cursor's slot only, and the block around it is `adcDoneBlock`. -/
theorem adcDoneFrame : Obligations.AdcDoneFrame := by
  intro s t x h
  cases h
  refine ⟨fun i hi => ?_, fun ch hch => ⟨adcDone_window_other x _ hch, adcDone_published_other x _ hch⟩,
    ⟨adcDone_diagEn x _, adcDone_diagOut x _⟩, adcDone_rx x _, rfl, flipChannel_ne _, complete_sameBoundary ..⟩
  exact (congrArg (·.read i) (adcDone_window_same x s.block)).trans (insert_read_other _ x hi)

/-- Settles O22: a window's slots bound its sum from both sides, so the exchange neither borrows nor carries. -/
theorem adcDoneKeepsTheRunningSum : Obligations.AdcDoneKeepsTheRunningSum := by
  intro s x hs hwf
  obtain ⟨hlegal, hch, -⟩ := (inv_iff s).1 hs
  obtain ⟨hsum, -⟩ := hch s.block.sel
  have hbound := (inv_total_le hs s.block.sel).trans (max_total_le hlegal)
  obtain ⟨hle, hnew, -⟩ := insert_exact _ x hsum hbound
  refine ⟨_, exec_adcDone s x, hle, ?_, fun ch => ?_⟩
  · simpa using hnew
  · obtain ⟨htotal, -⟩ := adcDone_channelInv hs (of_decide_eq_true hwf) ch
    exact htotal

/-! ### The selector counts the executed conversions (R107) -/

/-- The selector after `k` flips. -/
theorem iterate_flipChannel (k : Nat) (ch : Channel) :
    flipChannel^[k] ch = if k % 2 = 0 then ch else flipChannel ch := by
  have hinv : Function.Involutive flipChannel := flipChannel_flipChannel
  split
  next h => rw [hinv.iterate_even (Nat.even_iff.2 h), id]
  next h => rw [hinv.iterate_odd (Nat.odd_iff.2 (Nat.mod_two_ne_zero.1 h))]

/-- Between `s` and `t` the selector flipped once for each executed ADC_DONE among the responses given. -/
def State.AlternatesTo (s t : State) : Prop :=
  ∃ as, t.answers = as ++ s.answers ∧ t.block.sel = flipChannel^[conversions as] s.block.sel

/-- Where no response is given and the selector stays, it alternates. -/
theorem alternatesTo_of_same (ha : t.answers = s.answers) (hsel : t.block.sel = s.block.sel) : s.AlternatesTo t :=
  ⟨[], ha, hsel⟩

theorem State.AlternatesTo.trans (hsu : s.AlternatesTo u) (hut : u.AlternatesTo t) : s.AlternatesTo t := by
  obtain ⟨as, has, hs⟩ := hsu
  obtain ⟨bs, hbs, hu⟩ := hut
  refine ⟨bs ++ as, by rw [hbs, has, List.append_assoc], ?_⟩
  rw [hu, hs, ← Function.iterate_add_apply, conversions, conversions, conversions, List.countP_append]

theorem reject_alternatesTo (s : State) (p : Port) : s.AlternatesTo (s.reject p) :=
  ⟨[⟨p, 0, true⟩], rfl, by simp [conversions]⟩

theorem exec_alternatesTo (h : exec i s = .next t) : s.AlternatesTo t := by
  obtain ⟨b, d, rfl⟩ := exec_cases h
  refine ⟨[⟨i.port, d, false⟩], rfl, ?_⟩
  by_cases hi : ∃ x, i = .adcDone x
  · obtain ⟨x, rfl⟩ := hi
    rw [exec_adcDone_block h]
    rfl
  · have hport : i.port ≠ .adc := fun e => hi (port_eq_adc_iff.1 e)
    rw [sel_of_sameSampler (exec_sameSampler (not_exists.1 hi) h)]
    simp [conversions, hport]

theorem step_alternatesTo (hr : .reset ∉ s.turns.head?) (h : step s = .next t) : s.AlternatesTo t := by
  rcases step_cases h with ⟨-, rfl⟩ | ⟨p, ts, -, -, rfl⟩ | ⟨ts, ht, -⟩ | ⟨p, w, ws, ts, why, -, -, rfl⟩ |
    ⟨p, w, ws, ts, i, -, -, he⟩
  · exact alternatesTo_of_same rfl rfl
  · exact alternatesTo_of_same rfl rfl
  · simp [ht] at hr
  · exact (alternatesTo_of_same (by simp) (by simp)).trans (reject_alternatesTo _ p)
  · exact (alternatesTo_of_same (by simp) (by simp)).trans (exec_alternatesTo he)

/-- A step uses up one turn. -/
theorem step_turns (h : step s = .next t) : t.turns = s.turns.tail := by
  rcases step_cases h with ⟨ht, rfl⟩ | ⟨p, ts, ht, -, rfl⟩ | ⟨ts, ht, rfl⟩ | ⟨p, w, ws, ts, why, ⟨ht, -⟩, -, rfl⟩ |
    ⟨p, w, ws, ts, i, ⟨ht, -⟩, -, he⟩
  · simp [ht]
  · simp [ht]
  · simp [ht]
  · simp [ht]
  · obtain ⟨b, d, rfl⟩ := exec_cases he
    simp [ht]

theorem forall_mem_take_succ_iff {α : Type} {P : α → Prop} (l : List α) (n : Nat) :
    (∀ a ∈ l.take (n + 1), P a) ↔ (∀ a ∈ l.head?, P a) ∧ ∀ a ∈ l.tail.take n, P a := by
  cases l <;> simp

/-- `run_induction` for the runs whose turns all satisfy `P`: each step may use that the turn it takes does. -/
theorem run_induction_of_turns {R : State → State → Prop} {P : Turn → Prop} (refl : ∀ s, R s s)
    (head : ∀ s u t, (∀ τ ∈ s.turns.head?, P τ) → step s = .next u → R u t → R s t) (n : Nat) (s t : State)
    (hP : ∀ τ ∈ s.turns.take n, P τ) (h : Host.Core.run Sys2Proof.core n s = .next t) : R s t := by
  induction n generalizing s with
  | zero => cases h; exact refl _
  | succ n ih =>
    obtain ⟨u, hu⟩ := step_next s
    rw [run_succ hu] at h
    obtain ⟨hhead, htail⟩ := (forall_mem_take_succ_iff _ _).1 hP
    exact head _ _ _ hhead hu (ih u (step_turns hu ▸ htail) h)

theorem run_alternatesTo {n : Nat} (hr : .reset ∉ s.turns.take n)
    (h : Host.Core.run Sys2Proof.core n s = .next t) : s.AlternatesTo t :=
  run_induction_of_turns (R := State.AlternatesTo) (P := (· ≠ .reset)) (fun _ => alternatesTo_of_same rfl rfl)
    (fun _ _ _ hhead hstep ih => (step_alternatesTo (fun hm => hhead _ hm rfl) hstep).trans ih) n s t
    (fun _ hτ e => hr (e ▸ hτ)) h

/-- An ADC_DONE moves the cursor of the channel selected and leaves the other channel's window. -/
theorem exec_adcDone_credits_selected (h : exec (.adcDone x) s = .next t) :
    (t.block.window s.block.sel).cursor ≠ (s.block.window s.block.sel).cursor ∧
      t.block.window (flipChannel s.block.sel) = s.block.window (flipChannel s.block.sel) := by
  rw [exec_adcDone_block h]
  refine ⟨?_, adcDone_window_other x _ (flipChannel_ne _)⟩
  rw [adcDone_window_same, insert_cursor]
  exact (by decide : ∀ a : BitVec 3, a + 1 ≠ a) _

/-- Settles O23: each step flips the selector once for each ADC_DONE it answers without error, so a run does. -/
theorem executedConversionsAlternateChannels : Obligations.ExecutedConversionsAlternateChannels := by
  refine ⟨fun s t n hreset hr hrun => ?_, fun i s t h => ?_⟩
  · obtain ⟨as, has, hsel⟩ := run_alternatesTo hr hrun
    refine ⟨as, has, ?_, fun x u hu => exec_adcDone_credits_selected hu⟩
    rw [hsel, iterate_flipChannel, hreset]
    rfl
  · split
    next hi => obtain ⟨x, rfl⟩ := hi; exact exec_adcDone_block h ▸ rfl
    next hi => exact sel_of_sameSampler (exec_sameSampler (not_exists.1 hi) h)

/-! ### The window holds the last 8 samples credited (R109) -/

theorem credited_adcDone_self : credited ch ch [.adcDone x] = [x] := by simp [credited]

theorem credited_adcDone_other {sel : Channel} (h : sel ≠ ch) : credited ch sel [.adcDone x] = [] := by
  simp [credited, h]

theorem credited_of_ne_adcDone {sel : Channel} (hi : ∀ x, i ≠ .adcDone x) :
    credited ch sel (i :: is) = credited ch sel is := by
  cases i with
  | adcDone x => exact absurd rfl (hi x)
  | rxByte _ | tmrOvf | rdSum _ | rxEmpty | rxRemove | cfgWr _ => rfl

/-- The samples credited by a list of commands are those of the first, and then those of the rest from where it left
the selector. -/
theorem credited_cons (h : exec i s = .next u) :
    credited ch s.block.sel (i :: is) = credited ch s.block.sel [i] ++ credited ch u.block.sel is := by
  by_cases hi : ∃ x, i = .adcDone x
  · obtain ⟨x, rfl⟩ := hi
    rw [exec_adcDone_block h]
    simp [credited]
  · rw [credited_of_ne_adcDone (not_exists.1 hi), credited_of_ne_adcDone (not_exists.1 hi),
      sel_of_sameSampler (exec_sameSampler (not_exists.1 hi) h)]
    rfl

/-- A command that credits a sample to a channel evicts that channel's oldest; no other touches its samples. -/
theorem exec_samples (h : exec i s = .next u) : (u.block.window ch).samples =
    ((s.block.window ch).samples ++ credited ch s.block.sel [i]).drop (credited ch s.block.sel [i]).length := by
  by_cases hi : ∃ x, i = .adcDone x
  · obtain ⟨x, rfl⟩ := hi
    rw [exec_adcDone_block h]
    by_cases hc : ch = s.block.sel
    · subst hc
      rw [adcDone_window_same, insert_samples, credited_adcDone_self, List.length_singleton,
        List.drop_append_of_le_length (by simp), List.drop_one]
    · rw [adcDone_window_other _ _ hc, credited_adcDone_other (Ne.symm hc)]
      simp
  · rw [window_of_sameSampler (exec_sameSampler (not_exists.1 hi) h), credited_of_ne_adcDone (not_exists.1 hi)]
    simp [credited]

/-- After any commands a window holds the youngest 8 of the samples it held and those credited since. -/
theorem execAll_samples (h : execAll is s = .next t) (ch : Channel) : (t.block.window ch).samples =
    ((s.block.window ch).samples ++ credited ch s.block.sel is).drop (credited ch s.block.sel is).length := by
  refine execAll_induction (R := fun s t is => (t.block.window ch).samples =
    ((s.block.window ch).samples ++ credited ch s.block.sel is).drop (credited ch s.block.sel is).length)
    (fun _ => by simp [credited]) (fun i is s u t hu ih => ?_) is s t h
  rw [ih, exec_samples hu, credited_cons (is := is) hu, ← List.drop_append_of_le_length (by simp), List.drop_drop,
    List.append_assoc, List.length_append]

theorem execAll_keeps_inv (hs : s.Inv) (hwf : ∀ i ∈ is, i.wf s.cfg = true) (h : execAll is s = .next t) : t.Inv := by
  refine execAll_induction (R := fun s t is => s.Inv → (∀ i ∈ is, i.wf s.cfg = true) → t.Inv)
    (fun _ hs _ => hs) (fun i is s u t hu ih hs hwf => ?_) is s t h hs hwf
  obtain ⟨hi, his⟩ := List.forall_mem_cons.1 hwf
  exact ih (exec_keeps_inv hs hi hu) (exec_cfg hu ▸ his)

/-- Settles O24: 8 credited samples push out all that the window held, and its sum is that of the samples it holds. -/
theorem windowSumIsTheLastEightSamples : Obligations.WindowSumIsTheLastEightSamples := by
  intro s t is ch hs hwf h hlen
  obtain ⟨-, hch, -⟩ := (inv_iff t).1 (execAll_keeps_inv hs hwf h)
  obtain ⟨hsum, hpub, -⟩ := hch ch
  refine ⟨?_, hpub⟩
  rw [hsum, total_eq_sum_samples, execAll_samples h, List.drop_append, samples_length,
    List.drop_eq_nil_of_le (by simpa using hlen), List.nil_append]

end Sys2Proof.Machine

/-! ## Proofs: the tick source, TMR_OVF and CFG_WR (41_tick.md) -/

namespace Sys2Proof.Machine

/-- Settles O29: TMR_OVF exchanges `DIAG_OUT` for its exclusive or with `DIAG_EN`, and the rest of the block is as it
was. -/
theorem tmrOvfTogglesWhenEnabled : Obligations.TmrOvfTogglesWhenEnabled := by
  intro s
  have hexec := exec_tmrOvf s
  have hsampler := exec_sameSampler (fun _ => Instr.noConfusion) hexec
  exact ⟨_, hexec, rfl, rfl, rfl, hsampler, rfl, complete_answers .., complete_sameBoundary ..⟩

/-- Settles O31: CFG_WR exchanges `DIAG_EN` for its operand, and the rest of the block, the output with it, is as it
was. -/
theorem cfgWrWritesTheEnable : Obligations.CfgWrWritesTheEnable := by
  intro s e
  have hexec := exec_cfgWr s e
  have hsampler := exec_sameSampler (fun _ => Instr.noConfusion) hexec
  exact ⟨_, hexec, rfl, rfl, rfl, hsampler, rfl, complete_answers .., complete_sameBoundary ..⟩

end Sys2Proof.Machine

/-! ## Proofs: the receive buffer, RX_BYTE, RX_EMPTY and RX_REMOVE (42_rx_fifo.md) -/

namespace Sys2Proof

variable {c : Config} {p : Port} {w : Word} {j : Instr}

/-- A kind whose format has no free operand bit has one word, on its own port (30_encoding.md R73). -/
theorem decode_eq_legal_iff_eq_encode (hk : ∀ i, opOf i = opOf j ↔ i = j) (hn : operandBits c (opOf j) = some 0)
    (h0 : opndOf j = 0) : decode c p w = .legal j ↔ p = j.port ∧ w = encode j := by
  have hmask : BitVec.allOnes 16 = formatMask 0 := by decide
  have hword : encode j = opOf j ++ 0#12 := congrArg (opOf j ++ ·) h0
  rw [decode_kind_iff hk hn hmask hword, BitVec.and_allOnes, portOfOp_opOf]

end Sys2Proof

namespace Sys2Proof.Machine

variable {c : Config} {r : Ring}

/-- What storing a byte does to the ring, slot by slot (R151): the write cursor's slot exists and takes the byte. -/
theorem insert_stores (b : Byte) (hc : c.legal = true) (h : r.Inv c) (hf : r.lenValue c ≠ c.rxCap - 1) :
    (r.insert c b).buf[r.wrValue c]? = some b ∧
      (∀ i, i ≠ r.wrValue c → (r.insert c b).buf[i]? = r.buf[i]?) ∧
      (r.insert c b).wrValue c = (r.wrValue c + 1) % c.rxCap ∧ (r.insert c b).lenValue c = r.lenValue c + 1 := by
  obtain ⟨hbuf, hwr, hlen⟩ := insert_values b hc h hf
  obtain ⟨hslots, -, -, hlt, -⟩ := h
  rw [hbuf]
  exact ⟨List.getElem?_set_self (hslots ▸ hlt), fun i hi => List.getElem?_set_ne hi.symm, hwr, hlen⟩

/-- The byte a non-empty buffer gives up lies in the read cursor's slot (R160). -/
theorem getElem?_rdValue_eq_front (h : r.Inv c) (hz : r.lenValue c ≠ 0) : r.buf[r.rdValue c]? = some (r.front c) := by
  obtain ⟨hslots, -, hlt, -⟩ := h
  rw [front_of_not_empty hz]
  exact getElem?_eq_some_read (hslots ▸ hlt)

/-- Settles O32: RX_BYTE exchanges the ring for `Ring.insert` of it, and the rest of the block is as it was. -/
theorem rxByteStoresOrDropsTheNewest : Obligations.RxByteStoresOrDropsTheNewest := by
  intro s b hs
  obtain ⟨hlegal, -, hring⟩ := (inv_iff s).1 hs
  have hexec := exec_rxByte s b
  have hsampler := exec_sameSampler (fun _ => Instr.noConfusion) hexec
  exact ⟨_, hexec, insert_of_full b, insert_stores b hlegal hring, insert_rd b, insert_last b, hsampler, ⟨rfl, rfl⟩,
    complete_answers .., complete_sameBoundary ..⟩

/-- Settles O34: RX_REMOVE answers `Ring.front` and exchanges the ring for `Ring.remove` of it; the byte answered is
the one the ring remembers, before the command when it was empty and after it when not. -/
theorem rxRemoveTakesTheOldest : Obligations.RxRemoveTakesTheOldest := by
  intro s hs
  obtain ⟨hlegal, -, hring⟩ := (inv_iff s).1 hs
  have hexec := exec_rxRemove s
  have hsampler := exec_sameSampler (fun _ => Instr.noConfusion) hexec
  refine ⟨_, s.block.rx.front s.cfg, hexec, complete_answers .., fun hz => ?empty, fun hz => ?nonempty, remove_wr,
    remove_buf, hsampler, ⟨rfl, rfl⟩, complete_sameBoundary ..⟩
  case empty => exact ⟨front_of_empty hz, remove_of_empty hz⟩
  case nonempty =>
    obtain ⟨hrd, hlen, hlast⟩ := remove_values hlegal hring hz
    exact ⟨getElem?_rdValue_eq_front hring hz, hrd, hlen, hlast.trans (front_of_not_empty hz).symm⟩

/-- Settles O33: RX_EMPTY has the one word of its format, and its answer is the test of the length. -/
theorem rxEmptyAnswersTheEmptyTest : Obligations.RxEmptyAnswersTheEmptyTest := by
  refine ⟨fun c p w => decode_eq_legal_iff_eq_encode opOf_eq_rxEmpty_iff rfl rfl, fun s => ?_⟩
  exact ⟨_, exec_rxEmpty s, complete_answers .., rfl, complete_sameBoundary ..⟩

end Sys2Proof.Machine

/-! ## Proofs: rejection, the free order among ports, and the orders that agree (60_exceptions.md) -/

namespace Sys2Proof.Machine

variable {s : State} {p : Port} {w : Word} {ws : List Word} {ts : List Turn}

/-- Settles O8: a rejection keeps the block, and the outputs are copies of two of its registers. -/
theorem rejectionLeavesNoTrace : Obligations.RejectionLeavesNoTrace := by
  intro s p w ws ts why hs hd
  obtain ⟨t, ht, hrej⟩ := step_rejects hs hd
  have ⟨hblock, _⟩ := hrej
  exact ⟨t, ht, hrej, congrArg Block.muxSel hblock, congrArg Block.diag hblock⟩

/-! ### Every order among the ports is admitted (R185) -/

/-- An offered transaction, executed or rejected, is answered once, on the port that presents it, and taken from the
front of that port's queue. -/
theorem step_serves (h : s.Offers p w ws ts) :
    ∃ t a, step s = .next t ∧ t.answers = a :: s.answers ∧ a.port = p ∧ t.queue p = ws ∧
      (∀ q, q ≠ p → t.queue q = s.queue q) ∧ t.turns = ts := by
  cases hd : decode s.cfg p w with
  | illegal why =>
    obtain ⟨t, ht, -, -, hans, hp, hother, hts⟩ := step_rejects h hd
    exact ⟨t, _, ht, hans, rfl, hp, hother, hts⟩
  | legal i =>
    obtain ⟨-, rfl⟩ := (decode_legal_iff ..).1 hd
    obtain ⟨b, d, he⟩ := exec_eq_complete i ((s.setQueue i.port ws).withTurns ts)
    exact ⟨_, ⟨i.port, d, false⟩, (step_legal h hd).trans he, by simp, rfl, by simp,
      fun q hq => by simp [queue_setQueue_other _ _ hq], by simp⟩

/-- Turns for ports that have enough to present are all used, each answered on its port and each queue taken from its
front. -/
theorem run_serves (order : List Port) (s : State) (hts : s.turns = order.map .serve)
    (hlen : ∀ p, order.count p ≤ (s.queue p).length) :
    ∃ t as, Host.Core.run Sys2Proof.core order.length s = .next t ∧ t.answers = as ++ s.answers ∧
      as.reverse.map (·.port) = order ∧ (∀ p, t.queue p = (s.queue p).drop (order.count p)) ∧ t.turns = [] := by
  induction order generalizing s with
  | nil => exact ⟨s, [], rfl, rfl, rfl, fun _ => rfl, hts⟩
  | cons p order ih =>
    have hne : s.queue p ≠ [] := fun e => by simpa [e] using hlen p
    obtain ⟨w, ws, hq⟩ := List.exists_cons_of_ne_nil hne
    obtain ⟨u, a, hu, hans, hport, hqp, hother, hut⟩ := step_serves ⟨hts, hq⟩
    have htaken (q : Port) : ∃ first, s.queue q = first ++ u.queue q ∧
        (p :: order).count q = first.length + order.count q := by
      by_cases hqp' : q = p
      · subst hqp'
        exact ⟨[w], by rw [hq, hqp]; rfl, by simp [Nat.add_comm]⟩
      · exact ⟨[], (hother q hqp').symm, by simp [List.count_cons_of_ne (Ne.symm hqp')]⟩
    have hlen' (q : Port) : order.count q ≤ (u.queue q).length := by
      obtain ⟨first, hqueue, hcount⟩ := htaken q
      have := hlen q
      rw [hqueue, hcount, List.length_append] at this
      omega
    obtain ⟨t, as, ht, has, hports, hqueues, hturns⟩ := ih u hut hlen'
    refine ⟨t, as ++ [a], (run_succ hu).trans ht, by simp [has, hans], by simp [← hports, hport], fun q => ?_, hturns⟩
    obtain ⟨first, hqueue, hcount⟩ := htaken q
    rw [hqueues, hqueue, hcount, List.drop_length_add_append]

/-- Settles O19: the turns are the ports of the order, one by one. -/
theorem everyServiceOrderIsAdmitted : Obligations.EveryServiceOrderIsAdmitted := by
  intro s order hlen
  simpa using run_serves order (s.withTurns (order.map .serve)) rfl (by simpa using hlen)

/-! ### Commands of different families touch different registers (R187) -/

/-- The families of registers, and of the commands that touch them (40_sampler.md, 41_tick.md, 42_rx_fifo.md). -/
inductive Family where
  | sampler
  | tick
  | ring
deriving DecidableEq

/-- The values of a family's registers. -/
abbrev Family.Values : Family → Type
  | .sampler => Window × Window × Channel × Word × Word
  | .tick => Bool × Bool
  | .ring => Ring

/-- What a block's registers of a family hold. -/
def Block.values (b : Block) : (f : Family) → f.Values
  | .sampler => (b.win0, b.win1, b.sel, b.pub0, b.pub1)
  | .tick => (b.diagEn, b.diagOut)
  | .ring => b.rx

/-- The family whose registers a command touches. -/
def familyOf : Instr → Family
  | .adcDone _ => .sampler
  | .rdSum _ => .sampler
  | .tmrOvf => .tick
  | .cfgWr _ => .tick
  | .rxByte _ => .ring
  | .rxEmpty => .ring
  | .rxRemove => .ring

variable {t : State} {i j : Instr} {a b : Block} {f : Family}

/-- Every register of the block belongs to a family. -/
theorem block_eq_of_values (h : ∀ f, a.values f = b.values f) : a = b := by
  have hs := h .sampler
  have ht := h .tick
  have hr := h .ring
  cases a
  cases b
  simp_all [Block.values]

/-- The sampler's registers are those of `Block.SameSampler`. -/
theorem values_sampler_eq_iff : a.values .sampler = b.values .sampler ↔ b.SameSampler a := by
  simp [Block.values, Block.SameSampler]

theorem values_with_rx (hf : f ≠ .ring) (r : Ring) : Block.values { b with rx := r } f = b.values f := by
  cases f with
  | sampler | tick => rfl
  | ring => exact absurd rfl hf

theorem values_with_tick (hf : f ≠ .tick) (en out : Bool) :
    Block.values { b with diagEn := en, diagOut := out } f = b.values f := by
  cases f with
  | sampler | ring => rfl
  | tick => exact absurd rfl hf

theorem values_adcDoneBlock (hf : f ≠ .sampler) (x : Sample) : (adcDoneBlock x b).values f = b.values f := by
  cases f with
  | sampler => exact absurd rfl hf
  | tick | ring => simp [Block.values]

/-- A command writes no register of another family. -/
theorem exec_values_other (h : exec i s = .next t) (hf : f ≠ familyOf i) : t.block.values f = s.block.values f := by
  rcases exec_block h with ⟨x, rfl, e⟩ | ⟨_, rfl, e⟩ | ⟨rfl, e⟩ | ⟨rfl, e⟩ | ⟨_, rfl, e⟩ | ⟨-, e⟩ <;> rw [e]
  · exact values_adcDoneBlock hf x
  · exact values_with_rx hf _
  · exact values_with_tick hf _ _
  · exact values_with_rx hf _
  · exact values_with_tick hf _ _

/-- From blocks that agree in the sampler's registers, ADC_DONE leaves blocks that agree in them and answers alike. -/
theorem adcDone_reads_sampler (x : Sample) (h : b.values .sampler = a.values .sampler) :
    (b.window b.sel).insert x = (a.window a.sel).insert x ∧
      (adcDoneBlock x b).values .sampler = (adcDoneBlock x a).values .sampler := by
  have hb : b = { a with diagEn := b.diagEn, diagOut := b.diagOut, rx := b.rx } := by
    obtain ⟨h0, h1, hsel, hp0, hp1⟩ := values_sampler_eq_iff.1 h
    cases a
    cases b
    simp_all
  rw [hb]
  cases hsel : a.sel <;>
    simp [adcDoneBlock, hsel, Block.values, Block.window, Block.setWindow, Block.publish]

/-- A command reads no register of another family: from blocks that agree in its own family's registers it leaves blocks
that agree in them, and answers alike. -/
theorem exec_reads_family {u v : State} (hs : exec i s = .next t) (hu : exec i u = .next v) (hc : u.cfg = s.cfg)
    (h : u.block.values (familyOf i) = s.block.values (familyOf i)) :
    v.answers.head? = t.answers.head? ∧ v.block.values (familyOf i) = t.block.values (familyOf i) := by
  cases i with
  | adcDone x =>
    cases hs
    cases hu
    obtain ⟨hw, hv⟩ := adcDone_reads_sampler x h
    exact ⟨by simp [hw], hv⟩
  | rdSum ch =>
    cases hs
    cases hu
    have hpub := published_of_sameSampler (values_sampler_eq_iff.1 h) ch
    exact ⟨by simp [hpub], h⟩
  | tmrOvf =>
    rw [exec_tmrOvf] at hs hu
    cases hs
    cases hu
    obtain ⟨hen, hout⟩ := Prod.mk.inj h
    exact ⟨rfl, by simp [Block.values, familyOf, hen, hout]⟩
  | cfgWr e =>
    cases hs
    cases hu
    obtain ⟨-, hout⟩ := Prod.mk.inj h
    exact ⟨rfl, congrArg (e, ·) hout⟩
  | rxByte y =>
    cases hs
    cases hu
    have hrx : u.block.rx = s.block.rx := h
    exact ⟨rfl, by simp [Block.values, familyOf, hc, hrx]⟩
  | rxEmpty =>
    cases hs
    cases hu
    have hrx : u.block.rx = s.block.rx := h
    exact ⟨by simp [hc, hrx], h⟩
  | rxRemove =>
    cases hs
    cases hu
    have hrx : u.block.rx = s.block.rx := h
    exact ⟨by simp [hc, hrx], by simp [Block.values, familyOf, hc, hrx]⟩

/-- Commands of different families give the same block and the same answers in either order. -/
theorem exec_comm_of_family_ne (s : State) (hij : familyOf i ≠ familyOf j) :
    ∃ a b c d ri rj, exec i s = .next a ∧ exec j a = .next b ∧ exec j s = .next c ∧ exec i c = .next d ∧
      b.block = d.block ∧ b.answers = rj :: ri :: s.answers ∧ d.answers = ri :: rj :: s.answers := by
  obtain ⟨bi, di, hi⟩ := exec_eq_complete i s
  obtain ⟨bj, dj, hj⟩ := exec_eq_complete j s
  obtain ⟨bij, dj', hij'⟩ := exec_eq_complete j (s.complete i.port bi di)
  obtain ⟨bji, di', hji'⟩ := exec_eq_complete i (s.complete j.port bj dj)
  obtain ⟨haj, hvj⟩ := exec_reads_family hj hij' rfl (exec_values_other hi hij.symm)
  obtain ⟨hai, hvi⟩ := exec_reads_family hi hji' rfl (exec_values_other hj hij)
  obtain rfl : dj' = dj := by simpa using haj
  obtain rfl : di' = di := by simpa using hai
  refine ⟨_, _, _, _, ⟨i.port, _, false⟩, ⟨j.port, _, false⟩, hi, hij', hj, hji', ?_, rfl, rfl⟩
  refine block_eq_of_values fun f => ?_
  by_cases hfi : f = familyOf i
  · subst hfi
    exact (exec_values_other hij' hij).trans hvi.symm
  · by_cases hfj : f = familyOf j
    · subst hfj
      exact hvj.trans (exec_values_other hji' hij.symm).symm
    · exact ((exec_values_other hij' hfj).trans (exec_values_other hi hfi)).trans
        ((exec_values_other hji' hfi).trans (exec_values_other hj hfj)).symm

/-- R187 lists the pairs of commands of one family on different ports. -/
theorem orderMatters_iff : orderMatters i j = true ↔ i.port ≠ j.port ∧ familyOf i = familyOf j := by
  cases i <;> cases j <;> simp [orderMatters, Instr.port, familyOf]

/-- Settles O42: the unlisted pairs are of different families; each listed pair disagrees after reset, the first three in
an answer and the last in the block; a word that spells no command is rejected before its port is looked at. -/
theorem unlistedPairsCommute : Obligations.UnlistedPairsCommute := by
  refine ⟨fun i j s hp h => exec_comm_of_family_ne s fun hf => ?_, fun k hk => ?_,
    fun s p w ws ts hs hw _ => step_rejects hs (decode_of_decodeWord_illegal hw)⟩
  · simp [orderMatters_iff.2 ⟨hp, hf⟩] at h
  · simp only [List.mem_cons, List.not_mem_nil, or_false] at hk
    rcases hk with rfl | rfl | rfl | rfl
    · exact ⟨rfl, State.reset, _, _, _, _, rfl, rfl, rfl, rfl, .inr (by decide)⟩
    · exact ⟨rfl, State.reset, _, _, _, _, rfl, rfl, rfl, rfl, .inr (by decide)⟩
    · exact ⟨rfl, State.reset, _, _, _, _, rfl, rfl, rfl, rfl, .inr (by decide)⟩
    · exact ⟨rfl, State.reset, _, _, _, _, rfl, rfl, rfl, rfl, .inl (by decide)⟩

end Sys2Proof.Machine

/-! ## Proofs: the decoder and the encoder are inverse, and what an assembler makes of a line (30_encoding.md) -/

namespace Sys2Proof

variable {c : Config} {p : Port} {w : Word} {i : Instr} {opnd : BitVec 12}

/-! ### The operand is read back from its field -/

theorem setWidth_extractLsb'_of_lt (h : opnd.toNat < 2 ^ 8) : (opnd.extractLsb' 0 8).setWidth 12 = opnd :=
  BitVec.eq_of_toNat_eq (by simp [BitVec.extractLsb'_toNat]; omega)

theorem opndOfBit_getLsbD_of_lt (h : opnd.toNat < 2 ^ 1) : opndOfBit (opnd.getLsbD 0) = opnd := by
  have h01 : opnd = 0#12 ∨ opnd = 1#12 := by simp only [← BitVec.toNat_inj, BitVec.toNat_ofNat]; omega
  rcases h01 with rfl | rfl <;> rfl

/-- A word that spells a command has that command's operand in its operand field. -/
theorem opndField_of_decodeWord_legal (h : decodeWord c w = .legal i) : opndField w = opndOf i := by
  have hbyte := extractLsb'_eq_zero_iff (opnd := opndField w) (n := 8) (k := 4) rfl
  have hbit := extractLsb'_eq_zero_iff (opnd := opndField w) (n := 1) (k := 11) rfl
  simp only [decodeWord] at h
  split at h
  case h_8 => exact Decoded.noConfusion h
  case h_1 => obtain ⟨-, rfl⟩ := formatS_eq_legal_iff.1 h; rfl
  case h_2 =>
    obtain ⟨hz, rfl⟩ := formatB_eq_legal_iff.1 h
    exact (setWidth_extractLsb'_of_lt (hbyte.1 hz)).symm
  case h_3 | h_5 | h_6 => obtain ⟨hz, rfl⟩ := formatN_eq_legal_iff.1 h; exact hz
  case h_4 =>
    obtain ⟨hz, rfl⟩ := formatBit_eq_legal_iff.1 h
    rw [opndOf, bitOfChannel_channelOfBit, opndOfBit_getLsbD_of_lt (hbit.1 hz)]
  case h_7 =>
    obtain ⟨hz, rfl⟩ := formatBit_eq_legal_iff.1 h
    exact (opndOfBit_getLsbD_of_lt (hbit.1 hz)).symm

theorem encode_of_decodeWord_legal (h : decodeWord c w = .legal i) : encode i = w := by
  obtain ⟨hop, -⟩ := fields_of_decodeWord_legal h
  rw [encode, ← hop, ← opndField_of_decodeWord_legal h, opField_append_opndField]

/-- The decoder in one sentence: it reads exactly the admitted commands, each from its own encoding on its own port
(R79). -/
theorem decode_eq_legal_iff : decode c p w = .legal i ↔ i.wf c = true ∧ i.port = p ∧ encode i = w := by
  constructor
  · intro h
    obtain ⟨hw, rfl⟩ := (decode_legal_iff c p w i).1 h
    exact ⟨decode_wf h, rfl, encode_of_decodeWord_legal hw⟩
  · rintro ⟨hwf, rfl, rfl⟩
    exact (decode_legal_iff ..).2 ⟨decodeWord_encode hwf, rfl⟩

/-- Settles O1: an admitted command's encoding on its own port is one of the words the decoder reads. -/
theorem decodeOfEncodeIsTheInstruction : Obligations.DecodeOfEncodeIsTheInstruction :=
  fun _ _ hwf => decode_eq_legal_iff.2 ⟨hwf, rfl, rfl⟩

/-- Settles O2: the decoder reads no other word. -/
theorem decodedWordIsTheInstructionsEncoding : Obligations.DecodedWordIsTheInstructionsEncoding :=
  fun _ _ _ _ h => decode_eq_legal_iff.1 h

/-- Settles O4: the decoder evaluated on the ten words. -/
theorem writtenOutWordsDecode : Obligations.WrittenOutWordsDecode := by
  unfold Obligations.WrittenOutWordsDecode
  decide

end Sys2Proof

namespace Sys2Proof.Machine

variable {c : Config} {w : Word} {i : Instr}

/-- A line that checks its operand and then encodes a command the check makes admitted yields exactly the word that
decodes to that command. -/
theorem checked_encode_eq_some_iff {ok : Prop} [Decidable ok] (hwf : ok → i.wf c = true) :
    (if ok then some (encode i) else none) = some w ↔ ok ∧ decode c i.port w = .legal i := by
  rw [decode_eq_legal_iff, Option.ite_none_right_eq_some, Option.some.injEq]
  exact and_congr_right fun h => by simp [hwf h]

/-- The same for a line without an operand. -/
theorem encode_eq_some_iff (hwf : i.wf c = true) : some (encode i) = some w ↔ decode c i.port w = .legal i := by
  simp [decode_eq_legal_iff, hwf]

/-- A sample in range is admitted as the number it is. -/
theorem wf_adcDone_ofNat (hc : c.legal = true) {n : Nat} (hn : n < 2 ^ c.adcBits) :
    Instr.wf c (.adcDone (BitVec.ofNat 12 n)) = true := by
  have hb : c.adcBits ≤ 12 := by simp [Config.legal] at hc; omega
  have h12 : n < 2 ^ 12 := hn.trans_le (Nat.pow_le_pow_right (by decide) hb)
  exact decide_eq_true (by rwa [BitVec.toNat_ofNat, Nat.mod_eq_of_lt h12])

/-- A one-bit operand is in range when it is 0 or 1, and each is its own command. -/
theorem lt_two_and_iff {P : Nat → Prop} (n : Nat) : n < 2 ∧ P n ↔ n = 0 ∧ P 0 ∨ n = 1 ∧ P 1 := by
  match n with
  | 0 => simp
  | 1 => simp
  | n + 2 => simp

theorem assemble_word_eq_some_iff (n : Nat) (w : Word) : assemble c (.word n) = some w ↔ w.toNat = n := by
  have hw := w.isLt
  simp only [assemble, Option.ite_none_right_eq_some, Option.some.injEq, ← BitVec.toNat_inj, BitVec.toNat_ofNat]
  omega

/-- Settles O44: each mnemonic line checks its operand's range and encodes the command, which the decoder reads back. -/
theorem assembledLinesDecode : Obligations.AssembledLinesDecode := by
  intro c hc
  refine ⟨fun n w => ?_, fun n w => ?_, fun w => ?_, fun n w => ?_, fun w => ?_, fun w => ?_, fun n w => ?_,
    assemble_word_eq_some_iff⟩
  · exact checked_encode_eq_some_iff (wf_adcDone_ofNat hc)
  · exact checked_encode_eq_some_iff fun _ => rfl
  · exact encode_eq_some_iff rfl
  · exact (checked_encode_eq_some_iff fun _ => rfl).trans
      (lt_two_and_iff (P := fun n => decode c .host w = .legal (.rdSum (channelOfBit (n == 1)))) n)
  · exact encode_eq_some_iff rfl
  · exact encode_eq_some_iff rfl
  · exact (checked_encode_eq_some_iff fun _ => rfl).trans
      (lt_two_and_iff (P := fun n => decode c .host w = .legal (.cfgWr (n == 1))) n)

end Sys2Proof.Machine

/-! ## Proofs: the step, reset, and what no step stops at or changes (60_exceptions.md, 70_reset_and_hazards.md) -/

namespace Sys2Proof.Machine

variable {s t : State} {p : Port} {w : Word} {ws : List Word} {ts : List Turn}

/-- Settles O9: it is `step_legal`. -/
theorem stepRunsTheDecodedTransaction : Obligations.StepRunsTheDecodedTransaction :=
  fun _ _ _ _ _ _ hs hd => step_legal hs hd

/-- Settles O10: a boundary brings nothing when no turn is left or the port served presents nothing. -/
theorem nothingPresentedChangesNothing : Obligations.NothingPresentedChangesNothing :=
  ⟨fun _ ht => step_no_turn ht, fun _ _ _ ht hq => step_nothing_presented ht hq⟩

/-- Settles O11: one step always has a next state, so any number of them does. -/
theorem theBlockNeverStops : Obligations.TheBlockNeverStops := by
  intro n
  induction n with
  | zero => exact fun s => ⟨s, rfl⟩
  | succ n ih =>
    intro s
    obtain ⟨u, hu⟩ := step_next s
    rw [run_succ hu]
    exact ih u

/-- Settles O15: it is `step_keeps_inv`, by the cases of a step. -/
theorem everyStepKeepsTheInvariants : Obligations.EveryStepKeepsTheInvariants :=
  fun _ _ hs h => step_keeps_inv hs h

/-- Settles O17: no step writes a parameter, so no run does. -/
theorem noStepChangesAParameter : Obligations.NoStepChangesAParameter :=
  fun _ _ _ h => run_cfg h

/-! ### The reset values (R210) -/

/-- Both channels after reset: every slot, the sum, the cursor and the published sum are zero. -/
theorem reset_channel (c : Config) (ch : Channel) :
    (∀ i : Fin 8, ((Block.reset c).window ch).slots[i] = 0) ∧ ((Block.reset c).window ch).sum = 0 ∧
      ((Block.reset c).window ch).cursor = 0 ∧ (Block.reset c).published ch = 0 := by
  cases ch <;> exact ⟨fun i => Vector.getElem_replicate i.isLt, rfl, rfl, rfl⟩

/-- The slots of the receive buffer after reset: as many as the capacity, and all zero. -/
theorem reset_buf (c : Config) :
    (Block.reset c).rx.buf.length = c.rxCap ∧ ∀ b ∈ (Block.reset c).rx.buf, b = 0 :=
  ⟨List.length_replicate, fun _ hb => List.eq_of_mem_replicate hb⟩

/-- Settles O12: the step is `State.resetBlock`, which writes the block and nothing of the boundary. -/
theorem resetSetsEveryItem : Obligations.ResetSetsEveryItem := by
  intro s ts ht
  obtain ⟨hlen, hzero⟩ := reset_buf s.cfg
  exact ⟨_, step_reset ht, reset_channel s.cfg, rfl, rfl, rfl, hlen, hzero, rfl, rfl, rfl, rfl, rfl, rfl, rfl,
    fun p => by simp, rfl, rfl⟩

/-- Settles O13: `State.reset` is the reset block of the standard parameters with an empty boundary. -/
theorem startStateHoldsTheResetValues : Obligations.StartStateHoldsTheResetValues := by
  obtain ⟨hlen, hzero⟩ := reset_buf Config.standard
  exact ⟨rfl, rfl, rfl, by decide, by decide, reset_channel Config.standard, rfl, rfl, rfl, hlen, hzero, rfl, rfl, rfl,
    rfl, fun p => by cases p <;> rfl, rfl, rfl⟩

/-- Settles O14: it is `resetWith_inv`, and the standard parameters are legal. -/
theorem resetMeetsTheInvariants : Obligations.ResetMeetsTheInvariants :=
  ⟨resetWith_inv (c := Config.standard) (by decide), fun _ hc => resetWith_inv hc⟩

/-! ### What a served port does to the block -/

/-- A turn for port `p` leaves the block, or executes on it one command of that port. -/
theorem step_serve_cases (ht : s.turns = .serve p :: ts) (h : step s = .next t) :
    t.block = s.block ∨ ∃ i u, i.port = p ∧ u.cfg = s.cfg ∧ u.block = s.block ∧ exec i u = .next t := by
  rcases step_cases h with ⟨-, rfl⟩ | ⟨q, us, -, -, rfl⟩ | ⟨us, hr, -⟩ | ⟨q, w, ws, us, why, -, -, rfl⟩ |
    ⟨q, w, ws, us, i, ⟨hq, -⟩, hd, he⟩
  · exact .inl rfl
  · exact .inl rfl
  · rw [ht] at hr
    simp at hr
  · exact .inl (by simp)
  · obtain ⟨-, rfl⟩ := (decode_legal_iff ..).1 hd
    rw [ht] at hq
    obtain ⟨hpq, -⟩ := List.cons.inj hq
    exact .inr ⟨i, _, (Turn.serve.inj hpq).symm, by simp, by simp, he⟩

/-- What one command may do to the receive buffer: RX_BYTE and RX_REMOVE alone write it. -/
theorem exec_ring {i : Instr} (h : exec i s = .next t) :
    (∃ b, i = .rxByte b ∧ t.block.rx = s.block.rx.insert s.cfg b) ∨
    (i = .rxRemove ∧ t.block.rx = s.block.rx.remove s.cfg) ∨
    ((∀ b, i ≠ .rxByte b) ∧ i ≠ .rxRemove ∧ t.block.rx = s.block.rx) := by
  rcases exec_block h with ⟨x, rfl, e⟩ | ⟨b, rfl, e⟩ | ⟨rfl, e⟩ | ⟨rfl, e⟩ | ⟨en, rfl, e⟩ | ⟨rfl | ⟨ch, rfl⟩, e⟩ <;>
    simp [e]

/-- What is kept in a register's field after a write is at most what was written, whatever the parameters. -/
theorem counterOf_toNat_le (c : Config) (n : Nat) : (counterOf c n).toNat ≤ n % 2 ^ c.cursorBits := by
  rw [counterOf, BitVec.toNat_ofNat]
  exact Nat.mod_le _ _

theorem counterValue_counterOf_le (c : Config) (n : Nat) : counterValue c (counterOf c n) ≤ n :=
  (Nat.mod_le _ _).trans ((counterOf_toNat_le c n).trans (Nat.mod_le _ _))

/-- A removal never makes the buffer longer. -/
theorem remove_lenValue_le (c : Config) (r : Ring) : (r.remove c).lenValue c ≤ r.lenValue c := by
  by_cases hz : r.lenValue c = 0
  · rw [remove_of_empty hz]
  · rw [remove_of_not_empty hz]
    exact (counterValue_counterOf_le c _).trans (Nat.sub_le _ _)

/-- Where the invariants hold, a byte received never makes it shorter. -/
theorem lenValue_le_insert {c : Config} {r : Ring} (b : Byte) (hc : c.legal = true) (h : r.Inv c) :
    r.lenValue c ≤ (r.insert c b).lenValue c := by
  by_cases hf : r.lenValue c = c.rxCap - 1
  · rw [insert_of_full b hf]
  · obtain ⟨-, -, hlen⟩ := insert_values b hc h hf
    omega

variable {i : Instr}

/-! The registers each port owns (R45), command by command. -/

theorem exec_rx_eq (h : exec i s = .next t) (hrx : i.port ≠ .rx) (hhost : i.port ≠ .host) :
    t.block.rx = s.block.rx := by
  rcases exec_ring h with ⟨b, rfl, -⟩ | ⟨rfl, -⟩ | ⟨-, -, e⟩
  · exact absurd rfl hrx
  · exact absurd rfl hhost
  · exact e

/-- Only RX stores: a command of another port writes no slot and not the write cursor, and does not lengthen the
buffer. -/
theorem exec_stores_nothing (h : exec i s = .next t) (hrx : i.port ≠ .rx) :
    t.block.rx.buf = s.block.rx.buf ∧ t.block.rx.wr = s.block.rx.wr ∧
      t.block.rx.lenValue s.cfg ≤ s.block.rx.lenValue s.cfg := by
  rcases exec_ring h with ⟨b, rfl, -⟩ | ⟨rfl, e⟩ | ⟨-, -, e⟩
  · exact absurd rfl hrx
  · rw [e]
    exact ⟨remove_buf, remove_wr, remove_lenValue_le _ _⟩
  · rw [e]
    exact ⟨rfl, rfl, le_rfl⟩

/-- Only HOST removes: a command of another port does not write the read cursor or `RX_LAST`, and where the invariants
hold does not shorten the buffer. -/
theorem exec_removes_nothing (h : exec i s = .next t) (hhost : i.port ≠ .host) :
    t.block.rx.rd = s.block.rx.rd ∧ t.block.rx.last = s.block.rx.last ∧
      (s.cfg.legal = true → s.block.rx.Inv s.cfg → s.block.rx.lenValue s.cfg ≤ t.block.rx.lenValue s.cfg) := by
  rcases exec_ring h with ⟨b, rfl, e⟩ | ⟨rfl, -⟩ | ⟨-, -, e⟩
  · rw [e]
    exact ⟨insert_rd b, insert_last b, lenValue_le_insert b⟩
  · exact absurd rfl hhost
  · rw [e]
    exact ⟨rfl, rfl, fun _ _ => le_rfl⟩

theorem exec_diagEn_eq (h : exec i s = .next t) (hhost : i.port ≠ .host) : t.block.diagEn = s.block.diagEn := by
  rcases exec_block h with ⟨x, -, e⟩ | ⟨b, -, e⟩ | ⟨-, e⟩ | ⟨-, e⟩ | ⟨en, rfl, -⟩ | ⟨-, e⟩
  case inr.inr.inr.inr.inl => exact absurd rfl hhost
  all_goals simp [e]

theorem exec_diagOut_eq (h : exec i s = .next t) (hi : i ≠ .tmrOvf) : t.block.diagOut = s.block.diagOut := by
  rcases exec_block h with ⟨x, -, e⟩ | ⟨b, -, e⟩ | ⟨rfl, -⟩ | ⟨-, e⟩ | ⟨en, -, e⟩ | ⟨-, e⟩
  case inr.inr.inl => exact absurd rfl hi
  all_goals simp [e]

/-- Settles O40: a turn leaves the block or executes one command of its port, which writes only what the port owns. -/
theorem portsWriteOnlyWhatTheyOwn : Obligations.PortsWriteOnlyWhatTheyOwn := by
  intro s t p ts ht h
  rcases step_serve_cases ht h with e | ⟨i, u, rfl, hc, hb, he⟩
  · rw [e]
    exact ⟨fun _ => sameSampler_refl _, fun _ _ => rfl, fun _ => ⟨rfl, rfl, le_rfl⟩,
      fun _ => ⟨rfl, rfl, rfl, fun _ => le_rfl⟩, fun _ => rfl⟩
  · rw [← hc, ← hb]
    refine ⟨fun hadc => ?_, exec_rx_eq he, exec_stores_nothing he, fun hhost => ?_, fun htmr => ?_⟩
    · exact exec_sameSampler (fun x hi => hadc (port_eq_adc_iff.2 ⟨x, hi⟩)) he
    · obtain ⟨hrd, hlast, hlen⟩ := exec_removes_nothing he hhost
      exact ⟨hrd, hlast, exec_diagEn_eq he hhost, fun hs => by
        obtain ⟨hlegal, -, hring⟩ := (inv_iff u).1 ((inv_congr hc hb).2 hs)
        exact hlen hlegal hring⟩
    · exact exec_diagOut_eq he fun hi => htmr (hi ▸ rfl)

/-! ### The outputs (R33) -/

/-- The selector changes exactly by an ADC_DONE. -/
theorem exec_sel_ne_iff (h : exec i s = .next t) : t.block.sel ≠ s.block.sel ↔ ∃ x, i = .adcDone x := by
  constructor
  · exact fun hne => by_contra fun hi => hne (sel_of_sameSampler (exec_sameSampler (not_exists.1 hi) h))
  · rintro ⟨x, rfl⟩
    rw [exec_adcDone_block h]
    exact flipChannel_ne _

/-- The diagnostic level changes exactly by a TMR_OVF that finds it enabled. -/
theorem exec_diagOut_ne_iff (h : exec i s = .next t) :
    t.block.diagOut ≠ s.block.diagOut ↔ i = .tmrOvf ∧ s.block.diagEn = true := by
  by_cases hi : i = .tmrOvf
  · subst hi
    rw [exec_tmrOvf] at h
    cases h
    cases hen : s.block.diagEn <;> simp [hen]
  · simp [hi, exec_diagOut_eq h hi]

/-- An offered transaction that decodes to a command executes it on the block; any other leaves the block. -/
theorem step_offered_cases (hs : s.Offers p w ws ts) (h : step s = .next t) :
    (∃ why, decode s.cfg p w = .illegal why ∧ t.block = s.block) ∨
    (∃ i u, decode s.cfg p w = .legal i ∧ u.block = s.block ∧ exec i u = .next t) := by
  cases hd : decode s.cfg p w with
  | illegal why =>
    rw [step_illegal hs hd] at h
    cases h
    exact .inl ⟨why, rfl, by simp⟩
  | legal i => exact .inr ⟨i, _, rfl, by simp, step_legal hs hd ▸ h⟩

/-- With legal parameters the two channels have different inputs (R9). -/
theorem chPin_injective {c : Config} (h : c.legal = true) : Function.Injective (chPin c) := by
  have hne : c.chPin0 ≠ c.chPin1 := by simp [Config.legal] at h; omega
  intro a b hab
  match a, b with
  | .ch0, .ch0 | .ch1, .ch1 => rfl
  | .ch0, .ch1 => exact absurd hab hne
  | .ch1, .ch0 => exact absurd hab.symm hne

/-- Settles O43: an offered transaction executes its command, if it is one, and each output changes by one kind only. -/
theorem outputsFollowTheirCommands : Obligations.OutputsFollowTheirCommands := by
  intro s t p w ws ts hs h
  have hsel : t.block.muxSel ≠ s.block.muxSel ↔ ∃ x, decode s.cfg p w = .legal (.adcDone x) := by
    rcases step_offered_cases hs h with ⟨why, hd, e⟩ | ⟨i, u, hd, hb, he⟩
    · simp [hd, e]
    · simpa [hd, ← hb, Block.muxSel] using exec_sel_ne_iff he
  have hdiag : t.block.diag ≠ s.block.diag ↔ decode s.cfg p w = .legal .tmrOvf ∧ s.block.diagEn = true := by
    rcases step_offered_cases hs h with ⟨why, hd, e⟩ | ⟨i, u, hd, hb, he⟩
    · simp [hd, e]
    · simpa [hd, ← hb, Block.diag] using exec_diagOut_ne_iff he
  have hpin : t.analogInput = chPin s.cfg t.block.muxSel := by rw [State.analogInput, step_cfg h]
  refine ⟨hsel, hdiag, hpin.trans ?_, fun hlegal => ?_⟩
  · cases t.block.muxSel <;> rfl
  · rw [hpin, State.analogInput, (chPin_injective hlegal).ne_iff]
    exact hsel

end Sys2Proof.Machine

/-! ## Proofs: the warm-up sum, the average, the square wave, and who reads the published sums -/

namespace Sys2Proof.Machine

variable {s t : State} {is : List Instr}

/-! ### The sums (40_sampler.md) -/

theorem samples_reset (c : Config) (ch : Channel) :
    ((Block.reset c).window ch).samples = List.replicate 8 0 := by
  cases ch <;> rfl

/-- Settles O25: the window holds the samples credited and the zeros they have not yet pushed out. -/
theorem warmUpSumIsTheSamplesSoFar : Obligations.WarmUpSumIsTheSamplesSoFar := by
  intro s t is ch hlegal hreset hwf h hlen
  obtain ⟨-, hch, -⟩ := (inv_iff t).1 (execAll_keeps_inv (inv_of_block_reset hlegal hreset) hwf h)
  obtain ⟨hsum, hpub, -⟩ := hch ch
  refine ⟨?_, hpub⟩
  have hzeros : ((s.block.window ch).samples).drop (credited ch s.block.sel is).length =
      List.replicate (8 - (credited ch s.block.sel is).length) 0 := by
    rw [hreset, samples_reset, List.drop_replicate]
  rw [hsum, total_eq_sum_samples, execAll_samples h, List.drop_append_of_le_length (by simp [hlen.le]), hzeros]
  simp

/-- Settles O28: RD_SUM answers the published sum, which is the running sum, and 3 places are a factor of 8. -/
theorem averageIsTheSumOverEight : Obligations.AverageIsTheSumOverEight := by
  intro s ch hs
  obtain ⟨-, hch, -⟩ := (inv_iff s).1 hs
  obtain ⟨-, hpub, -⟩ := hch ch
  refine ⟨_, _, exec_rdSum s ch, complete_answers .., ?_⟩
  rw [hpub, hostAverage, BitVec.toNat_ushiftRight, Nat.shiftRight_eq_div_pow]

/-- ADC_DONE overwrites one published sum and reads neither. -/
theorem adcDoneBlock_with_published (x : Sample) (b : Block) (v0 v1 : Word) :
    { adcDoneBlock x { b with pub0 := v0, pub1 := v1 } with
      pub0 := (adcDoneBlock x b).pub0, pub1 := (adcDoneBlock x b).pub1 } = adcDoneBlock x b := by
  obtain ⟨win0, win1, sel, pub0, pub1, diagEn, diagOut, rx⟩ := b
  cases sel <;> rfl

theorem window_with_published (b : Block) (v0 v1 : Word) (ch : Channel) :
    Block.window { b with pub0 := v0, pub1 := v1 } ch = b.window ch := by
  cases ch <;> rfl

/-- Settles O41: ADC_DONE reads the window, and the other five commands do not touch the sampler. -/
theorem onlySumReadsSeeThePublishedSums : Obligations.OnlySumReadsSeeThePublishedSums := by
  intro i s v0 v1 hi
  cases i with
  | rdSum ch => exact absurd rfl (hi ch)
  | adcDone x =>
    refine ⟨_, _, exec_adcDone s x, exec_adcDone _ x, ?_, adcDoneBlock_with_published x s.block v0 v1⟩
    simp [window_with_published]
  | rxByte b => exact ⟨_, _, exec_rxByte s b, exec_rxByte _ b, rfl, rfl⟩
  | tmrOvf => exact ⟨_, _, exec_tmrOvf s, exec_tmrOvf _, rfl, rfl⟩
  | rxEmpty => exact ⟨_, _, exec_rxEmpty s, exec_rxEmpty _, rfl, rfl⟩
  | rxRemove => exact ⟨_, _, exec_rxRemove s, exec_rxRemove _, rfl, rfl⟩
  | cfgWr en => exact ⟨_, _, exec_cfgWr s en, exec_cfgWr _ en, rfl, rfl⟩

/-! ### The square wave (41_tick.md section 1) -/

/-- One flip more changes the parity. -/
theorem xor_and_succ_parity (out en : Bool) (n : Nat) :
    ((out ^^ en) ^^ (en && n % 2 == 1)) = (out ^^ (en && (n + 1) % 2 == 1)) := by
  have hparity : ((n + 1) % 2 == 1) = !(n % 2 == 1) := by
    rcases Nat.mod_two_eq_zero_or_one n with h | h <;> simp [Nat.add_mod, h]
  rw [hparity]
  cases en with
  | false => simp
  | true => simp

/-- Settles O30: by induction, each overflow flips the level when it is enabled and leaves the enable. -/
theorem overflowsMakeASquareWave : Obligations.OverflowsMakeASquareWave := by
  intro n
  induction n with
  | zero => exact fun s => ⟨s, rfl, by simp⟩
  | succ n ih =>
    intro s
    obtain ⟨t, ht, hb⟩ := ih (s.complete .tmr { s.block with diagOut := s.block.diagOut ^^ s.block.diagEn } 0)
    refine ⟨t, (execAll_cons (exec_tmrOvf s)).trans ht, ?_⟩
    rw [hb, complete_block, xor_and_succ_parity]

end Sys2Proof.Machine

/-! ## Proofs: the receive buffer as a bounded queue (42_rx_fifo.md sections 1 to 4) -/

namespace Sys2Proof.Machine

variable {c : Config} {r : Ring} {s t : State} {i : Instr} {is : List Instr}

/-! ### The ring's operations on the unread bytes -/

theorem unread_insert_eq (b : Byte) (hc : c.legal = true) (h : r.Inv c) : (r.insert c b).unread c =
    if (r.unread c).length < c.rxCap - 1 then r.unread c ++ [b] else r.unread c := by
  have ⟨_, hle, _⟩ := h
  rw [unread_length]
  by_cases hf : r.lenValue c = c.rxCap - 1
  · rw [insert_of_full b hf, if_neg hf.not_lt]
  · rw [unread_insert b hc h hf, if_pos (lt_of_le_of_ne hle hf)]

theorem unread_remove_eq_tail (hc : c.legal = true) (h : r.Inv c) : (r.remove c).unread c = (r.unread c).tail := by
  by_cases hz : r.lenValue c = 0
  · rw [remove_of_empty hz, unread_eq_nil_iff.2 hz, List.tail_nil]
  · rw [unread_eq_cons hc h hz, List.tail_cons]

/-- The byte RX_REMOVE answers: the oldest unread one, or when there is none the one remembered. -/
theorem front_eq_headD (hc : c.legal = true) (h : r.Inv c) : r.front c = (r.unread c).headD r.last := by
  by_cases hz : r.lenValue c = 0
  · rw [front_of_empty hz, unread_eq_nil_iff.2 hz, List.headD_nil]
  · rw [front_of_not_empty hz, unread_eq_cons hc h hz, List.headD_cons]

/-- After RX_REMOVE the byte remembered is the one it answered. -/
theorem remove_last_eq_front : (r.remove c).last = r.front c := by
  by_cases hz : r.lenValue c = 0
  · rw [remove_of_empty hz, front_of_empty hz]
  · rw [remove_of_not_empty hz, front_of_not_empty hz]

/-- Settles O35: `Ring.insert`, `Ring.remove` and `Ring.front` act on the unread bytes as on a bounded queue. -/
theorem ringRefinesABoundedQueue : Obligations.RingRefinesABoundedQueue := by
  intro s t hs
  obtain ⟨hlegal, -, hring⟩ := (inv_iff s).1 hs
  refine ⟨fun b h => ?_, fun h => ?_, fun h => ?_⟩
  · rw [exec_rxByte] at h
    cases h
    exact ⟨unread_insert_eq b hlegal hring, insert_last b⟩
  · rw [exec_rxEmpty] at h
    cases h
    simp [State.Answers, unread_eq_nil_iff]
  · rw [exec_rxRemove] at h
    cases h
    rw [← front_eq_headD hlegal hring]
    exact ⟨unread_remove_eq_tail hlegal hring, remove_last_eq_front, complete_answers ..⟩

/-! ### The capacity law (R166 (a)) -/

/-- Of a byte appended to the unread ones the first `C - 1` are kept. -/
theorem unread_insert_eq_take (b : Byte) (hc : c.legal = true) (h : r.Inv c) :
    (r.insert c b).unread c = (r.unread c ++ [b]).take (c.rxCap - 1) := by
  have ⟨_, hle, _⟩ := h
  rw [← unread_length] at hle
  rw [unread_insert_eq b hc h]
  split
  next hlt => rw [List.take_of_length_le (by rw [List.length_append, List.length_singleton]; exact hlt)]
  next hge =>
    have hfull : (r.unread c).length = c.rxCap - 1 := by omega
    rw [List.take_append_of_le_length hfull.ge, List.take_of_length_le hfull.le]

theorem take_take_append {α : Type} (n : Nat) (xs ys : List α) : (xs.take n ++ ys).take n = (xs ++ ys).take n := by
  have hrest : n - min n xs.length = n - xs.length := by omega
  rw [List.take_append, List.take_append, List.take_take, Nat.min_self, List.length_take, hrest]

/-- Of bytes received, behind those unread at the start, the first `C - 1` are kept. -/
theorem execAll_rxBytes (bs : List Byte) (s : State) (hs : s.Inv) : ∃ t, execAll (bs.map .rxByte) s = .next t ∧
    t.block.rx.unread s.cfg = (s.block.rx.unread s.cfg ++ bs).take (s.cfg.rxCap - 1) := by
  induction bs generalizing s with
  | nil =>
    obtain ⟨-, -, hring⟩ := (inv_iff s).1 hs
    have ⟨_, hle, _⟩ := hring
    refine ⟨s, rfl, ?_⟩
    rw [List.append_nil, List.take_of_length_le (unread_length.trans_le hle)]
  | cons b bs ih =>
    obtain ⟨hlegal, -, hring⟩ := (inv_iff s).1 hs
    obtain ⟨t, ht, hunread⟩ := ih _ (exec_keeps_inv hs rfl (exec_rxByte s b))
    refine ⟨t, (execAll_cons (exec_rxByte s b)).trans ht, ?_⟩
    have hstored := unread_insert_eq_take b hlegal hring
    calc t.block.rx.unread s.cfg
        = ((s.block.rx.unread s.cfg ++ [b]).take (s.cfg.rxCap - 1) ++ bs).take (s.cfg.rxCap - 1) := by
          rw [← hstored]; exact hunread
      _ = (s.block.rx.unread s.cfg ++ b :: bs).take (s.cfg.rxCap - 1) := by
          rw [take_take_append, List.append_assoc, List.singleton_append]

/-- Settles O36: from an empty buffer only the bytes received are there to be kept. -/
theorem firstBytesAreKept : Obligations.FirstBytesAreKept := by
  intro s bs hs hz
  obtain ⟨t, ht, hunread⟩ := execAll_rxBytes bs s hs
  rw [unread_eq_nil_iff.2 hz, List.nil_append] at hunread
  refine ⟨t, ht, ?_, hunread⟩
  rw [← unread_length, hunread, List.length_take, Nat.min_comm]

/-! ### Empty reads (R166 (c)) -/

theorem exec_rxRemove_of_empty (hz : s.block.rx.lenValue s.cfg = 0) :
    exec .rxRemove s = .next (s.complete .host s.block (s.block.rx.last.setWidth 16)) := by
  rw [exec_rxRemove, remove_of_empty hz, front_of_empty hz]

/-- Settles O38: an empty read leaves an empty buffer that remembers the same byte. -/
theorem emptyReadsAreIdempotent : Obligations.EmptyReadsAreIdempotent := by
  intro n
  induction n with
  | zero => exact fun s _ => ⟨s, rfl, rfl, ⟨rfl, rfl, rfl, rfl, rfl, rfl⟩, rfl⟩
  | succ n ih =>
    intro s hz
    have hexec := exec_rxRemove_of_empty hz
    obtain ⟨t, ht, hblock, hboundary, hanswers⟩ := ih (s.complete .host s.block (s.block.rx.last.setWidth 16)) hz
    refine ⟨t, (execAll_cons hexec).trans ht, hblock, hboundary, ?_⟩
    rw [hanswers, List.replicate_succ', List.append_assoc]
    rfl

/-! ### First in, first out (R166 (b)) -/

/-- Every command, admitted or not, keeps the ring's invariant: no operand of RX_BYTE is refused. -/
theorem exec_keeps_ring_inv (hc : s.cfg.legal = true) (hr : s.block.rx.Inv s.cfg) (h : exec i s = .next t) :
    t.block.rx.Inv s.cfg := by
  rcases exec_ring h with ⟨b, -, e⟩ | ⟨-, e⟩ | ⟨-, -, e⟩ <;> rw [e]
  · exact insert_inv b hc hr
  · exact remove_inv hc hr
  · exact hr

/-- One command moves bytes from the unread ones to those returned and from those stored to the unread ones, and loses
and makes none. -/
theorem exec_moves_bytes (hc : s.cfg.legal = true) (hr : s.block.rx.Inv s.cfg) (h : exec i s = .next t)
    (hne : i = .rxRemove → s.block.rx.lenValue s.cfg ≠ 0) :
    (s.block.rx.unread s.cfg ++ (Event.stored ⟨s, i, t⟩).toList).map (·.setWidth 16) =
      (Event.returned ⟨s, i, t⟩).toList ++ (t.block.rx.unread s.cfg).map (·.setWidth 16) := by
  rcases exec_ring h with ⟨b, rfl, e⟩ | ⟨rfl, e⟩ | ⟨hbyte, hremove, e⟩ <;> rw [e]
  · by_cases hf : s.block.rx.lenValue s.cfg = s.cfg.rxCap - 1
    · simp [Event.stored, Event.returned, hf, insert_of_full b hf]
    · simp [Event.stored, Event.returned, hf, unread_insert b hc hr hf]
  · have hz := hne rfl
    rw [exec_rxRemove] at h
    cases h
    simp [Event.stored, Event.returned, unread_eq_cons hc hr hz, front_of_not_empty hz]
  · have hnone : Event.stored ⟨s, i, t⟩ = none ∧ Event.returned ⟨s, i, t⟩ = none := by
      cases i with
      | rxByte b => exact absurd rfl (hbyte b)
      | rxRemove => exact absurd rfl hremove
      | adcDone _ | tmrOvf | rdSum _ | rxEmpty | cfgWr _ => exact ⟨rfl, rfl⟩
    obtain ⟨hstored, hreturned⟩ := hnone
    simp [hstored, hreturned]

/-- No command of a list loses or makes a byte, so the list does not. -/
theorem execAll_moves_bytes (is : List Instr) (s t : State) (h : execAll is s = .next t) (hc : s.cfg.legal = true)
    (hr : s.block.rx.Inv s.cfg)
    (hne : ∀ e ∈ history is s, e.instr = .rxRemove → e.before.block.rx.lenValue e.before.cfg ≠ 0) :
    (s.block.rx.unread s.cfg ++ (history is s).filterMap Event.stored).map (·.setWidth 16) =
      (history is s).filterMap Event.returned ++ (t.block.rx.unread s.cfg).map (·.setWidth 16) := by
  induction is generalizing s with
  | nil => cases h; simp [history]
  | cons i is ih =>
    obtain ⟨b, d, he⟩ := exec_eq_complete i s
    rw [execAll_cons he] at h
    rw [history_cons he] at hne ⊢
    obtain ⟨hfirst, hrest⟩ := List.forall_mem_cons.1 hne
    have hmoved := exec_moves_bytes hc hr he hfirst
    have hru := exec_keeps_ring_inv hc hr he
    have htail := ih _ h hc hru hrest
    simp only [List.filterMap_eq_flatMap_toList, List.flatMap_cons] at htail ⊢
    rw [← List.append_assoc, List.map_append, hmoved, List.append_assoc, ← List.map_append, List.append_assoc]
    exact congrArg _ htail

/-- Settles O37: the same from every state that meets the invariants. -/
theorem bytesLeaveInTheOrderStored : Obligations.BytesLeaveInTheOrderStored := by
  intro s t is hs h hne
  obtain ⟨hlegal, -, hring⟩ := (inv_iff s).1 hs
  exact execAll_moves_bytes is s t h hlegal hring hne

/-! ### A checked read (30_encoding.md R92) -/

/-- A step that serves another port than HOST, and does not reset, at most appends to the unread bytes. -/
theorem step_appends_unread (hs : s.Inv) (hturn : ∀ τ ∈ s.turns.head?, τ ≠ .reset ∧ τ ≠ .serve .host)
    (h : step s = .next t) : s.block.rx.unread s.cfg <+: t.block.rx.unread t.cfg := by
  obtain ⟨hlegal, -, hring⟩ := (inv_iff s).1 hs
  rw [step_cfg h]
  match ht : s.turns with
  | [] =>
    rw [step_no_turn ht] at h
    cases h
    exact List.prefix_rfl
  | .reset :: ts => simp [ht] at hturn
  | .serve p :: ts =>
    have hp : p ≠ .host := by simpa [ht] using hturn
    rcases step_serve_cases ht h with e | ⟨i, u, rfl, hc, hb, he⟩
    · rw [e]
    · rcases exec_ring he with ⟨b, rfl, e⟩ | ⟨rfl, -⟩ | ⟨-, -, e⟩
      · rw [e, hc, hb, unread_insert_eq b hlegal hring]
        split
        · exact List.prefix_append ..
        · exact List.prefix_rfl
      · exact absurd rfl hp
      · rw [e, hb]

theorem run_appends_unread {n : Nat} (hs : s.Inv) (hturns : ∀ τ ∈ s.turns.take n, τ ≠ .reset ∧ τ ≠ .serve .host)
    (h : Host.Core.run Sys2Proof.core n s = .next t) : s.block.rx.unread s.cfg <+: t.block.rx.unread t.cfg :=
  run_induction_of_turns (R := fun s t => s.Inv → s.block.rx.unread s.cfg <+: t.block.rx.unread t.cfg)
    (fun _ _ => List.prefix_rfl)
    (fun _ _ _ hturn hstep ih hs => (step_appends_unread hs hturn hstep).trans (ih (step_keeps_inv hs hstep)))
    n s t hturns h hs

/-- Settles O39: RX_EMPTY's 0 means that some byte is oldest, and what is appended behind it leaves it the oldest. -/
theorem checkedReadIsNeverStale : Obligations.CheckedReadIsNeverStale := by
  intro s a b t n hs ha hanswer hturns hrun ht
  refine ⟨rfl, ?_⟩
  have hexec : exec .rxEmpty s = .next a := ha
  have hsa : a.Inv := exec_keeps_inv hs rfl hexec
  rw [exec_rxEmpty] at hexec
  cases hexec
  have hz : s.block.rx.lenValue s.cfg ≠ 0 := by simpa [State.Answers] using hanswer
  obtain ⟨x, xs, hx⟩ := List.exists_cons_of_ne_nil (mt unread_eq_nil_iff.1 hz)
  refine ⟨x, by rw [hx, List.head?_cons], ?_⟩
  obtain ⟨younger, hyounger⟩ := run_appends_unread hsa hturns hrun
  obtain ⟨hlegal, -, hring⟩ := (inv_iff b).1 (run_keeps_inv hsa hrun)
  have hfront : b.block.rx.front b.cfg = x := by
    rw [front_eq_headD hlegal hring, ← hyounger]
    simp [hx]
  rw [exec_rxRemove, hfront] at ht
  cases ht
  exact complete_answers ..

end Sys2Proof.Machine

/-! ## Proofs: the buffer's registers have `CW` bits (00_scope.md R11) -/

namespace Sys2Proof.Machine

variable {c : Config} {r r' : Ring} {s t : State} {i : Instr}

/-! ### What is written fits, and how the counters count -/

theorem counterOf_toNat_lt (c : Config) (n : Nat) : (counterOf c n).toNat < 2 ^ c.cursorBits :=
  (counterOf_toNat_le c n).trans_lt (Nat.mod_lt _ (Nat.two_pow_pos _))

/-- The two rings' cursors and lengths are the same, or the second's have no bit above the `CW` low ones. -/
def Ring.WritesFit (c : Config) (r r' : Ring) : Prop :=
  (r'.rd = r.rd ∨ r'.rd.toNat < 2 ^ c.cursorBits) ∧ (r'.wr = r.wr ∨ r'.wr.toNat < 2 ^ c.cursorBits) ∧
    (r'.len = r.len ∨ r'.len.toNat < 2 ^ c.cursorBits)

theorem writesFit_refl (c : Config) (r : Ring) : r.WritesFit c r := ⟨.inl rfl, .inl rfl, .inl rfl⟩

theorem insert_writesFit (c : Config) (r : Ring) (b : Byte) : r.WritesFit c (r.insert c b) := by
  by_cases hf : r.lenValue c = c.rxCap - 1
  · rw [insert_of_full b hf]
    exact writesFit_refl c r
  · rw [insert_of_not_full b hf]
    exact ⟨.inl rfl, .inr (counterOf_toNat_lt c _), .inr (counterOf_toNat_lt c _)⟩

theorem remove_writesFit (c : Config) (r : Ring) : r.WritesFit c (r.remove c) := by
  by_cases hz : r.lenValue c = 0
  · rw [remove_of_empty hz]
    exact writesFit_refl c r
  · rw [remove_of_not_empty hz]
    exact ⟨.inr (counterOf_toNat_lt c _), .inl rfl, .inr (counterOf_toNat_lt c _)⟩

theorem exec_writesFit (h : exec i s = .next t) : s.block.rx.WritesFit s.cfg t.block.rx := by
  rcases exec_ring h with ⟨b, -, e⟩ | ⟨-, e⟩ | ⟨-, -, e⟩ <;> rw [e]
  · exact insert_writesFit _ _ b
  · exact remove_writesFit _ _
  · exact writesFit_refl _ _

/-- A stored byte counts one more modulo `2^CW`, the ring's invariant or not. -/
theorem insert_counts (b : Byte) (hc : c.legal = true) (hf : r.lenValue c ≠ c.rxCap - 1) :
    (r.insert c b).wrValue c = (r.wrValue c + 1) % c.rxCap ∧
      (r.insert c b).lenValue c = (r.lenValue c + 1) % 2 ^ c.cursorBits := by
  obtain ⟨h2, -⟩ := legal_cap hc
  rw [insert_of_not_full b hf]
  exact ⟨counterValue_counterOf_of_lt hc (Nat.mod_lt _ (by omega)), counterValue_counterOf hc _⟩

/-- A removed byte counts one less, the ring's invariant or not. -/
theorem remove_counts (hc : c.legal = true) (hz : r.lenValue c ≠ 0) :
    (r.remove c).rdValue c = (r.rdValue c + 1) % c.rxCap ∧ (r.remove c).lenValue c = r.lenValue c - 1 := by
  obtain ⟨h2, -⟩ := legal_cap hc
  have hlt : r.lenValue c - 1 < 2 ^ c.cursorBits := (Nat.sub_le _ _).trans_lt (counterValue_lt c r.len)
  rw [remove_of_not_empty hz]
  exact ⟨counterValue_counterOf_of_lt hc (Nat.mod_lt _ (by omega)),
    (counterValue_counterOf hc _).trans (Nat.mod_eq_of_lt hlt)⟩

theorem cursorBits_of_cap_50 (h : c.rxCap = 50) : c.cursorBits = 6 := by
  rw [Config.cursorBits, h]
  decide

/-- Settles O18: `CW` bounds the capacity from both sides, every read takes `CW` bits, and every write leaves no
more. -/
theorem ringCountersFitTheirRegisters : Obligations.RingCountersFitTheirRegisters := by
  refine ⟨fun c hc => ?_, fun s => ?_, fun i s t h => exec_writesFit h, fun s hc => ⟨fun b hf => ?_, fun hz => ?_⟩⟩
  · obtain ⟨h2, -⟩ := legal_cap hc
    exact ⟨rxCap_le_two_pow c, two_pow_lt_rxCap h2, cursorBits_le hc, cursorBits_of_cap_50⟩
  · exact ⟨counterValue_lt .., counterValue_lt .., counterValue_lt ..⟩
  · exact ⟨_, exec_rxByte s b, insert_counts b hc hf⟩
  · exact ⟨_, exec_rxRemove s, remove_counts hc hz⟩

/-! ### No other bit acts -/

theorem insert_sameContents (b : Byte) (h : r.SameContents c r') :
    (r.insert c b).SameContents c (r'.insert c b) := by
  have ⟨hbuf, hlast, hrd, hwr, hlen⟩ := h
  by_cases hf : r.lenValue c = c.rxCap - 1
  · rwa [insert_of_full b hf, insert_of_full b (hlen.trans hf)]
  · rw [insert_of_not_full b hf, insert_of_not_full b (hlen.trans_ne hf), hbuf, hwr, hlen]
    exact ⟨rfl, hlast, hrd, rfl, rfl⟩

theorem read_of_sameContents (h : r.SameContents c r') (k : Nat) : r'.read k = r.read k := by
  obtain ⟨hbuf, -⟩ := h
  rw [Ring.read, Ring.read, hbuf]

theorem remove_sameContents (h : r.SameContents c r') : (r.remove c).SameContents c (r'.remove c) := by
  have ⟨hbuf, _, hrd, hwr, hlen⟩ := h
  by_cases hz : r.lenValue c = 0
  · rwa [remove_of_empty hz, remove_of_empty (hlen.trans hz)]
  · rw [remove_of_not_empty hz, remove_of_not_empty (hlen.trans_ne hz), read_of_sameContents h, hrd, hlen]
    exact ⟨hbuf, rfl, rfl, hwr, rfl⟩

/-- What RX_REMOVE remembers is what it answers, so rings of the same contents answer alike. -/
theorem front_of_sameContents (h : r.SameContents c r') : r'.front c = r.front c := by
  obtain ⟨-, hlast, -⟩ := remove_sameContents h
  rw [← remove_last_eq_front, ← remove_last_eq_front, hlast]

/-- ADC_DONE neither reads nor writes the receive buffer. -/
theorem adcDoneBlock_with_rx (x : Sample) (b : Block) (r : Ring) :
    adcDoneBlock x { b with rx := r } = { adcDoneBlock x b with rx := r } := by
  obtain ⟨win0, win1, sel, pub0, pub1, diagEn, diagOut, rx⟩ := b
  cases sel <;> rfl

theorem window_with_rx (b : Block) (r : Ring) (ch : Channel) : Block.window { b with rx := r } ch = b.window ch := by
  cases ch <;> rfl

theorem published_with_rx (b : Block) (r : Ring) (ch : Channel) :
    Block.published { b with rx := r } ch = b.published ch := by
  cases ch <;> rfl

/-- Settles O45: the three ring commands see the contents alone, and the other four do not see the ring. -/
theorem noBitAboveTheCounterWidthActs : Obligations.NoBitAboveTheCounterWidthActs := by
  intro i s r h
  have ⟨_, _, _, _, hlen⟩ := h
  cases i with
  | adcDone x =>
    refine ⟨_, _, exec_adcDone s x, exec_adcDone _ x, ?_, ?_, ?_⟩
    · simp [window_with_rx]
    · simpa [adcDoneBlock_with_rx] using h
    · rw [complete_block, complete_block, adcDoneBlock_with_rx]
  | rxByte b => exact ⟨_, _, exec_rxByte s b, exec_rxByte _ b, rfl, insert_sameContents b h, rfl⟩
  | tmrOvf => exact ⟨_, _, exec_tmrOvf s, exec_tmrOvf _, rfl, h, rfl⟩
  | rdSum ch => exact ⟨_, _, exec_rdSum s ch, exec_rdSum _ ch, by simp [published_with_rx], h, rfl⟩
  | rxEmpty => exact ⟨_, _, exec_rxEmpty s, exec_rxEmpty _, by simp [hlen], h, rfl⟩
  | rxRemove =>
    exact ⟨_, _, exec_rxRemove s, exec_rxRemove _, by simp [front_of_sameContents h], remove_sameContents h, rfl⟩
  | cfgWr en => exact ⟨_, _, exec_cfgWr s en, exec_cfgWr _ en, rfl, h, rfl⟩

end Sys2Proof.Machine
